-- ==== Sys2Proof/Word.lean ====
section
/-!
DEFINITION. The bit-vector types of the block (R8, R39): every value the block holds is an
unsigned bit vector of a stated width.
-/

namespace Sys2Proof

/-- One byte: the width of `CRC` and of the operand field `DATA` (R20, R61). -/
abbrev Byte := BitVec 8

/-- One command word `cmd[15:0]`; `CODE` has the same width (R20, R60). -/
abbrev Word := BitVec 16

end Sys2Proof
end

