-- ==== Sys2Proof/Syntax.lean ====
section
/-!
DEFINITION. The command set: one constructor of `Instr` for each row of spec/opcode_table.json
(R63, R64), and the three fields of a command word as they stand in it (R61).
An illegal command word is no row of the table and no `Instr` (log entry 9).
-/

namespace Sys2Proof

/-- The names of the four rows of R63. -/
inductive Mnemonic where
  | nop
  | init
  | feed
  | check
  deriving DecidableEq, Repr

/-- A legal command, its operand byte `DATA` already taken out of the word (R62, R63). -/
inductive Instr where
  /-- NOP (R120). -/
  | nop
  /-- INIT (R121). -/
  | init
  /-- FEED: absorb the byte `d` (R92). -/
  | feed (d : Byte)
  /-- CHECK: compare the register with the received checksum byte `c` (R100). -/
  | check (c : Byte)
  deriving DecidableEq, Repr

/-- The row of R63 a command belongs to. -/
def Instr.mnemonic : Instr → Mnemonic
  | .nop => .nop
  | .init => .init
  | .feed _ => .feed
  | .check _ => .check

/-- The fields of any 16-bit command word, legal or not (R61). -/
structure Fields where
  /-- `RSV`, bits 15:12. -/
  rsv : BitVec 4
  /-- `OP`, bits 11:8. -/
  op : BitVec 4
  /-- `DATA`, bits 7:0. -/
  data : Byte
  deriving DecidableEq, Repr

end Sys2Proof
end

