-- ==== Sys2Proof/WellFormed.lean ====
section
/-!
DEFINITION. What makes the fields of a command word a legal command (R61, R63, R65): one check for
each of the three classes of illegal words. An `Instr` has no field that could break one: its
operand is a byte by its type, and NOP and INIT have none.
-/

namespace Sys2Proof

/-- `RSV` is 0b0000 in every legal word (R61, first class of R65). -/
def Fields.rsvOk (f : Fields) : Bool := f.rsv == 0#4

/-- `OP` is one of the assigned values 0x0 to 0x3 (R63, second class of R65). -/
def Fields.opOk (f : Fields) : Bool := decide (f.op.toNat < 4)

/-- `DATA` is 0x00 under NOP and INIT (R61, third class of R65). -/
def Fields.dataOk (f : Fields) : Bool := !(f.op == 0x0#4 || f.op == 0x1#4) || f.data == 0x00#8

/-- The fields are those of a legal command word (R64, R65). -/
def Fields.wellFormed (f : Fields) : Bool := f.rsvOk && f.opOk && f.dataOk

/-- The operand of a command is a value from 0 to 255, or the command takes none (R62, R69). -/
def Instr.wellFormed : Instr → Bool
  | .nop => true
  | .init => true
  | .feed d => decide (d.toNat ≤ 255)
  | .check c => decide (c.toNat ≤ 255)

end Sys2Proof
end

