-- ==== Sys2Proof/Decode.lean ====
section
/-!
DEFINITION. The command-word encoding (R60 to R68): the fields of a word, the total decoder of R66
with a name for each class of illegal words, the encoder, and the match and mask rows of R64.
The decode depends on no state (R68).
-/

namespace Sys2Proof

/-! ### The fields of a word (R61) -/

/-- `RSV`, bits 15:12 of the word (R61). -/
def rsvOf (w : Word) : BitVec 4 := w.extractLsb' 12 4

/-- `OP`, bits 11:8 of the word (R61). -/
def opOf (w : Word) : BitVec 4 := w.extractLsb' 8 4

/-- `DATA`, bits 7:0 of the word, used exactly as it stands (R61, R62). -/
def dataOf (w : Word) : Byte := w.extractLsb' 0 8

/-- The word taken apart (R61). -/
def fieldsOf (w : Word) : Fields := ⟨rsvOf w, opOf w, dataOf w⟩

/-- The word that has the given fields (R61). -/
def packFields (f : Fields) : Word := f.rsv ++ f.op ++ f.data

/-! ### The decoder (R66) -/

/-- Why a word is illegal: the three classes of R65. -/
inductive IllegalClass where
  /-- `RSV` ≠ 0, whatever `OP` and `DATA` are. -/
  | reservedBits
  /-- `RSV` = 0 and `OP` in 0x4 to 0xF. -/
  | unassignedOp
  /-- `RSV` = 0, `OP` 0x0 or 0x1, and `DATA` ≠ 0x00. -/
  | unexpectedData
  deriving DecidableEq, Repr

/-- What R66's decoder answers: one of the four commands, or ILLEGAL with the word. -/
inductive Decoded where
  | instr (i : Instr)
  | illegal (w : Word) (why : IllegalClass)
  deriving DecidableEq, Repr

/-- The decoder of R66, total on all 65,536 words. -/
def decode (w : Word) : Decoded :=
  if rsvOf w ≠ 0#4 then .illegal w .reservedBits
  else if opOf w = 0x0#4 then
    if dataOf w = 0x00#8 then .instr .nop else .illegal w .unexpectedData
  else if opOf w = 0x1#4 then
    if dataOf w = 0x00#8 then .instr .init else .illegal w .unexpectedData
  else if opOf w = 0x2#4 then .instr (.feed (dataOf w))
  else if opOf w = 0x3#4 then .instr (.check (dataOf w))
  else .illegal w .unassignedOp

/-- The command of a word, none where the word is illegal. -/
def decodeInstr (w : Word) : Option Instr :=
  match decode w with
  | .instr i => some i
  | .illegal _ _ => none

/-- The host's reading of a table row's bits: a command word is 16 bits, numbered as the table
numbers them, and no word is wider (R60, log entry 12). -/
def decodeTableWord (nbits w : Nat) : Option Instr :=
  if w % 2 ^ nbits < 2 ^ 16 then decodeInstr (BitVec.ofNat 16 (w % 2 ^ nbits)) else none

/-! ### The encoder, from the opcode map of R63 -/

/-- The fields of a command's word (R61, R63). -/
def fieldsOfInstr : Instr → Fields
  | .nop => ⟨0#4, 0x0#4, 0x00#8⟩
  | .init => ⟨0#4, 0x1#4, 0x00#8⟩
  | .feed d => ⟨0#4, 0x2#4, d⟩
  | .check c => ⟨0#4, 0x3#4, c⟩

/-- The one word of a command (R63). -/
def encode (i : Instr) : Word := packFields (fieldsOfInstr i)

/-! ### The match and mask rows of R64 -/

/-- One row of R64's table. -/
structure Row where
  mnemonic : Mnemonic
  pattern : Word
  mask : Word
  deriving DecidableEq, Repr

/-- The four rows of R64, in the table's order. -/
def rows : List Row :=
  [ ⟨.nop, 0x0000#16, 0xFFFF#16⟩,
    ⟨.init, 0x0100#16, 0xFFFF#16⟩,
    ⟨.feed, 0x0200#16, 0xFF00#16⟩,
    ⟨.check, 0x0300#16, 0xFF00#16⟩ ]

/-- A word selects a row when `(w & mask) == match` (R64). -/
def Row.selects (r : Row) (w : Word) : Bool := (w &&& r.mask) == r.pattern

/-- A word is legal when some row of R64 matches it, and illegal otherwise (R65). -/
def legalWord (w : Word) : Bool := rows.any (fun r => r.selects w)

/-- How many of the 65,536 words have a property (R64, R65 count the legal and the illegal ones). -/
def countWords (p : Word → Bool) : Nat :=
  ((List.range (2 ^ 16)).filter (fun n => p (BitVec.ofNat 16 n))).length

/-! ### Each row's decoding, on a word written out from R64's pattern -/

theorem decode_word_nop : decode 0b0000000000000000#16 = .instr .nop := by decide
theorem decode_word_init : decode 0b0000000100000000#16 = .instr .init := by decide
theorem decode_word_feed : decode 0b0000001001011010#16 = .instr (.feed 0x5A#8) := by decide
theorem decode_word_check : decode 0b0000001110101010#16 = .instr (.check 0xAA#8) := by decide

end Sys2Proof
end

