-- ==== Sys2Proof/Config.lean ====
section
/-!
DEFINITION. The parameters of R7 that the spec fixes.

`P_CRC_WIDTH` = 8, `P_CODE_WIDTH` = 16 and `P_CMD_WIDTH` = 16 are the widths of `Byte` and `Word`.
`P_REFIN` = `P_REFOUT` = false and `P_XOROUT` = 0x00 say that nothing is reversed and that no last
XOR is applied (R2, R83), so no operation of the model reads them.
`P_BUSY` is OPEN (R7, R178, X4): it is no constant of this file but the argument of
`Sys2Proof.Machine.stallsWithin`, and no meaning depends on it.
-/

namespace Sys2Proof.Config

/-- `P_POLY` in its 9-bit form, x^8 + x^5 + x^4 + 1 (R2, R7). -/
def poly : BitVec 9 := 0x131#9

/-- `P_INIT`, the value a computation starts from (R2, R7). -/
def crcInit : Byte := 0x00#8

/-- `P_FRAME_DATA_LEN`: the number of data bytes of a frame (R7, R101). -/
def frameDataLen : Nat := 2

/-- The value at which the 2-bit count `CNT` saturates (`P_CNT_WIDTH`, R7, R28). -/
def cntMax : Nat := 3

/-- The reference value of the open parameter `P_BUSY` (R7, R178). -/
def referenceBusy : Nat := 0

end Sys2Proof.Config
end

