-- ==== Sys2Proof/Machine/State.lean ====
section
/-!
DEFINITION. The state of the machine as plain data: the registers of R20 and R39, and beside them
the host's side of the command port, which R34 keeps outside the block.
The file also holds the types of the ports (R41), of the events of an edge (R146), of the verdicts
(R102) and of the layer over power-on (R36).
-/

namespace Sys2Proof.Machine

/-- The block's registers: R39's record, and nothing else. `STATUS` is held by its fields; its two
hardwired bits have no storage (R20, R31). -/
structure Regs where
  /-- `CRC`, the running remainder (R21). -/
  crc : Byte
  /-- `CODE`, the big-endian capture of the fed bytes (R23). -/
  code : Word
  /-- `STATUS.DONE`, STATUS[0] (R26). -/
  done : Bool
  /-- `STATUS.MATCH`, STATUS[1] (R27). -/
  matched : Bool
  /-- `STATUS.VALID`, STATUS[2] (R29). -/
  valid : Bool
  /-- `STATUS.ILL`, STATUS[3], sticky (R30). -/
  ill : Bool
  /-- `STATUS.CNT`, STATUS[5:4], saturating at 3 (R28). -/
  cnt : Fin 4
  deriving DecidableEq, Repr

/-- The reset values of R38. -/
def Regs.reset : Regs :=
  { crc := Config.crcInit, code := 0x0000#16, done := false, matched := false, valid := false,
    ill := false, cnt := 0 }

/-- What stands on the input ports at one rising edge of `clk` (R41), and beside it the one choice
the spec leaves to the implementation (R178). -/
structure EdgeIn where
  /-- `rst`. -/
  rst : Bool
  /-- `cmd_valid`. -/
  cmdValid : Bool
  /-- `cmd[15:0]`; any value while no word is accepted (R43, X5). -/
  cmd : Word
  /-- The implementation's stall logic keeps `cmd_ready` low in this cycle (R35, R178): free data,
  since `P_BUSY` is open (log entry 3). -/
  stall : Bool
  deriving DecidableEq, Repr

/-- The machine: the block's registers, and the host's side of the command port. -/
structure State where
  /-- The block (R39). -/
  regs : Regs
  /-- The MODEL's own field: the word the host presents that is not accepted yet (R43, log
  entry 4). -/
  held : Option Word
  /-- The MODEL's own field: what the host will put on the input ports, the next edge first (R34,
  log entry 1). -/
  inputs : List EdgeIn
  deriving DecidableEq, Repr

/-- The machine right after reset (R38): the model's first state (R39). The host's side is empty
(log entry 1). -/
def State.reset : State := { regs := Regs.reset, held := none, inputs := [] }

/-- Why a run is stuck. The block itself has no fault that stops it (R140, R147): both reasons are a
host out of contract (R152), and both are the spec's own `stuck` (X1, X6). -/
inductive Fault where
  /-- The host changed or withdrew the word it held before the block accepted it, with `rst` = 0
  (R43, X6). Raised by `risingEdge`. Safe: the spec gives such a run no step. -/
  | heldWordChanged (held : Word)
  /-- The host presented a command word, or read an output, after power-on and before the first
  reset edge (R36, R173, X1). Raised by `chipEdge` and `Chip.read`, never by `step`. Safe: the spec
  gives such a run no step. -/
  | usedBeforeReset
  deriving DecidableEq, Repr

/-- Why an instruction has no meaning. No arm of `exec` is refused. -/
inductive Refusal where
  /-- The instruction of that name has no meaning yet. Raised by nothing: safe. -/
  | notModelled (mnemonic : String)
  deriving DecidableEq, Repr

/-- The three register outputs (R41). -/
structure Outputs where
  /-- `crc_out[7:0]`. -/
  crcOut : Byte
  /-- `code_out[15:0]`. -/
  codeOut : Word
  /-- `status_out[7:0]`. -/
  statusOut : Byte
  deriving DecidableEq, Repr

/-- All four outputs in one cycle (R41): `cmd_ready` beside the registers. -/
structure CycleOut where
  /-- `cmd_ready`. -/
  cmdReady : Bool
  outputs : Outputs
  deriving DecidableEq, Repr

/-- What can take effect at one rising edge, at most one of them (R146). -/
inductive Event where
  /-- An edge with `rst` = 1 (R170). -/
  | reset
  /-- The command word accepted at the edge (R42). -/
  | word (w : Word)
  deriving DecidableEq, Repr

/-- What `DONE`, `MATCH` and `VALID` say together (R102). -/
inductive Verdict where
  /-- No CHECK since the last INIT, FEED or reset. -/
  | noVerdict
  /-- The checksum of exactly 2 data bytes equals the byte compared. -/
  | validFrame
  /-- The register differs from the byte compared (R142): the source's `IntegrityError`. -/
  | checksumMismatch
  /-- The register equals the byte compared, after a number of bytes other than 2 (R143). -/
  | lengthMismatch
  deriving DecidableEq, Repr

/-- The block with its power: before the first reset edge no register has a value, and a model
gives it none (R36, R39, R173). -/
inductive Chip where
  /-- Powered on, no reset edge yet (X1). -/
  | unspecified
  /-- Reset at least once since power-on. -/
  | live (s : State)
  deriving DecidableEq, Repr

end Sys2Proof.Machine
end

