-- ==== Sys2Proof/Machine/Operands.lean ====
section
/-!
DEFINITION. The ways a command uses its one operand, the byte `DATA`, exactly as it stands (R62):
FEED XORs it into the register and shifts it into `CODE`, CHECK compares it with the register.
-/

namespace Sys2Proof.Machine

/-- FEED's first use: the whole byte XORed into the register before any shift (R62, R81). -/
def xorIntoCrc (crc d : Byte) : Byte := crc ^^^ d

/-- FEED's second use: `CODE` moved left by one byte, the fed byte in its low byte (R23). -/
def shiftIntoCode (code : Word) (d : Byte) : Word := code.extractLsb' 0 8 ++ d

/-- CHECK's use: equality with the register (R62, R100). -/
def equalsCrc (crc c : Byte) : Bool := crc == c

end Sys2Proof.Machine
end

