-- ==== Sys2Proof/Machine/Flags.lean ====
section
/-!
DEFINITION. Every field of `STATUS` that a command computes (R25 to R31), the byte the fields make
(R25, R39), and the verdict they spell (R102).
-/

namespace Sys2Proof.Machine

/-- `sat3(n)` = min(n, 3) (R9). -/
def sat3 (n : Nat) : Nat := min n Config.cntMax

/-- The next value of `CNT` at a FEED: `sat3(CNT + 1)` (R28). -/
def countUp (cnt : Fin 4) : Fin 4 :=
  ⟨sat3 (cnt.val + 1), Nat.lt_of_le_of_lt (Nat.min_le_right _ _) (by decide)⟩

/-- What CHECK writes into `MATCH` (R27, R100). -/
def matchFlag (crc c : Byte) : Bool := equalsCrc crc c

/-- What CHECK writes into `VALID`, from the new `MATCH` and the old `CNT` (R29, R100). -/
def validFlag (matchNew : Bool) (cnt : Fin 4) : Bool :=
  matchNew && cnt.val == Config.frameDataLen

/-- `DONE`, `MATCH` and `VALID` cleared, as INIT and FEED do (R26, R27, R29). -/
def Regs.clearVerdict (r : Regs) : Regs := { r with done := false, matched := false, valid := false }

/-- `STATUS` as one byte: STATUS[7:6] hardwired to 0, then `CNT`, `ILL`, `VALID`, `MATCH` and `DONE`
(R25, R31, R39). -/
def Regs.status (r : Regs) : Byte :=
  0b00#2 ++ (BitVec.ofFin r.cnt : BitVec 2) ++ BitVec.ofBool r.ill ++ BitVec.ofBool r.valid ++
    BitVec.ofBool r.matched ++ BitVec.ofBool r.done

/-- The verdict that `DONE`, `MATCH` and `VALID` spell; none for a combination that R102 and R32 say
cannot occur. -/
def Regs.verdict (r : Regs) : Option Verdict :=
  match r.done, r.matched, r.valid with
  | false, false, false => some .noVerdict
  | true, true, true => some .validFrame
  | true, false, false => some .checksumMismatch
  | true, true, false => some .lengthMismatch
  | _, _, _ => none

end Sys2Proof.Machine
end

