-- ==== Sys2Proof/Machine/Ops.lean ====
section
/-!
DEFINITION. The named operations the meanings and the edges share: the checksum functions of R80 to
R82, the one error action of R141, the reset of R170, and putting registers back into the machine.

The block has no trap: `raise IllegalCommand` saves nothing, changes no mode and transfers control
nowhere (R140, R147), and there is no return from it (R148). Only a reset clears `ILL`.
-/

namespace Sys2Proof.Machine

/-! ### The checksum functions -/

/-- `crc8_bit`: one bit step of the register, in the source's 9-bit form (R80). The bit tested is
bit 7 before the shift. -/
def crcBit (r : Byte) : Byte :=
  let s : BitVec 9 := (r.setWidth 9) <<< 1
  if r.getLsbD 7 then (s ^^^ Config.poly).extractLsb' 0 8 else s.extractLsb' 0 8

/-- `crc8_byte`: the byte XORed in whole, then exactly eight bit steps (R81). -/
def crcByte (r d : Byte) : Byte :=
  crcBit (crcBit (crcBit (crcBit (crcBit (crcBit (crcBit (crcBit (xorIntoCrc r d))))))))

/-- `crc8`: the checksum of a byte sequence, from the initial value, each byte in order (R82). The
result is the register itself (R83). -/
def crc8 (bs : List Byte) : Byte := bs.foldl crcByte Config.crcInit

/-! ### The error action and the reset -/

/-- `raise IllegalCommand`: `ILL` becomes 1 and nothing else changes (R141). -/
def Regs.raiseIllegalCommand (r : Regs) : Regs := { r with ill := true }

/-- The machine with other registers; the host's side is untouched. -/
def State.setRegs (s : State) (r : Regs) : State := { s with regs := r }

/-- `raise IllegalCommand` in the machine (R123, R141). -/
def raiseIllegalCommand (s : State) : State := s.setRegs s.regs.raiseIllegalCommand

/-- A reset edge's effect: every register takes its reset value (R170), whatever it held. -/
def resetBlock (s : State) : State := s.setRegs Regs.reset

end Sys2Proof.Machine
end

