-- ==== Sys2Proof/Machine/Control.lean ====
section
/-!
DEFINITION. The control family: NOP (R120) and INIT (R121).
-/

namespace Sys2Proof.Machine

/-- NOP: no register is written (R120). -/
def execNop (s : State) : Host.Outcome State Fault Refusal := .next s

/-- INIT: a new computation from the initial value; `ILL` is unchanged (R121). -/
def execInit (s : State) : Host.Outcome State Fault Refusal :=
  .next (s.setRegs
    { s.regs.clearVerdict with crc := Config.crcInit, code := 0x0000#16, cnt := 0 })

end Sys2Proof.Machine
end

