-- ==== Sys2Proof/Machine/CrcUpdate.lean ====
section
/-!
DEFINITION. The CRC update family: FEED (R92).
-/

namespace Sys2Proof.Machine

/-- FEED: absorb the byte `d` into `CRC` and `CODE`, count it, and clear the verdict; `ILL` is
unchanged (R92). -/
def execFeed (d : Byte) (s : State) : Host.Outcome State Fault Refusal :=
  .next (s.setRegs
    { s.regs.clearVerdict with
      crc := crcByte s.regs.crc d
      code := shiftIntoCode s.regs.code d
      cnt := countUp s.regs.cnt })

end Sys2Proof.Machine
end

