-- ==== Sys2Proof/Machine/Validation.lean ====
section
/-!
DEFINITION. The validation family: CHECK (R100).
-/

namespace Sys2Proof.Machine

/-- CHECK: compare `CRC` with the received checksum byte `c` and record the verdict; `CRC`, `CODE`,
`CNT` and `ILL` are unchanged (R100). -/
def execCheck (c : Byte) (s : State) : Host.Outcome State Fault Refusal :=
  .next (s.setRegs
    { s.regs with
      matched := matchFlag s.regs.crc c
      valid := validFlag (matchFlag s.regs.crc c) s.regs.cnt
      done := true })

end Sys2Proof.Machine
end

