-- ==== Sys2Proof/Machine/Port.lean ====
section
/-!
DEFINITION. The ports (R41): `cmd_ready` (R44), which event an edge holds (R42, R146), the host's
duty to hold a presented word (R43), the bound `P_BUSY` on stalls (R178), and the outputs (R53).
-/

namespace Sys2Proof.Machine

/-- `cmd_ready`: 0 while `rst` = 1, else what the stall logic says; it does not depend on `cmd`
(R44). -/
def cmdReady (e : EdgeIn) : Bool := !e.rst && !e.stall

/-- A command word is accepted at the edge (R42). -/
def accepts (e : EdgeIn) : Bool := !e.rst && e.cmdValid && cmdReady e

/-- The event of an edge, in R146's order: reset, else the accepted word, else nothing. -/
def eventOf (e : EdgeIn) : Option Event :=
  if e.rst then some .reset else if accepts e then some (.word e.cmd) else none

/-- The word presented at the edge and not accepted there, which the host must go on holding (R43).
While `rst` = 1 the host may change or withdraw it (R172). -/
def heldAfter (e : EdgeIn) : Option Word :=
  if !e.rst && e.cmdValid && !cmdReady e then some e.cmd else none

/-- The held word, where the host changes or withdraws it at the edge against its duty (R43, X6).
With `rst` = 1 it may (R172). -/
def brokenHold (held : Option Word) (e : EdgeIn) : Option Word :=
  match held with
  | none => none
  | some w => if e.rst || (e.cmdValid && e.cmd == w) then none else some w

/-- The host keeps its duty over all the edges (R43, R152). -/
def keepsDuty (held : Option Word) : List EdgeIn → Bool
  | [] => true
  | e :: es => (brokenHold held e).isNone && keepsDuty (heldAfter e) es

/-- The word still held after all the edges. -/
def heldAfterRows (held : Option Word) : List EdgeIn → Option Word
  | [] => held
  | e :: es => heldAfterRows (heldAfter e) es

/-- After `run` cycles in a row with `rst` = 0 and `cmd_ready` = 0, no such run grows longer than
`pBusy`. -/
def stallsWithinFrom (pBusy : Nat) (run : Nat) : List EdgeIn → Bool
  | [] => true
  | e :: es =>
    if !e.rst && !cmdReady e then decide (run + 1 ≤ pBusy) && stallsWithinFrom pBusy (run + 1) es
    else stallsWithinFrom pBusy 0 es

/-- `cmd_ready` is held low for at most `pBusy` consecutive cycles with `rst` = 0 (R44, R178). The
open parameter `P_BUSY` is the argument (R7, X4). -/
def stallsWithin (pBusy : Nat) (es : List EdgeIn) : Bool := stallsWithinFrom pBusy 0 es

/-- The three register outputs, at all times the registers (R53). -/
def outputsOf (r : Regs) : Outputs := { crcOut := r.crc, codeOut := r.code, statusOut := r.status }

/-- The row that presents the word `w` to a block that is ready for it. -/
def acceptedRow (w : Word) : EdgeIn := { rst := false, cmdValid := true, cmd := w, stall := false }

/-- The row of an edge at which the host does nothing: no reset, and no word presented. -/
def idleRow : EdgeIn := { rst := false, cmdValid := false, cmd := 0x0000#16, stall := false }

/-- The row of an edge with `rst` = 1 and no word presented. -/
def resetRow : EdgeIn := { rst := true, cmdValid := false, cmd := 0x0000#16, stall := false }

/-- What the host reads out of `code_out` taken as two bytes: the first data byte, then the second
(R47). -/
def codeBytes (code : Word) : Byte × Byte := (code.extractLsb' 8 8, code.extractLsb' 0 8)

end Sys2Proof.Machine
end

