-- ==== Sys2Proof/Machine/Edge.lean ====
section
/-!
DEFINITION. What one accepted word, one event and one rising edge do (R42, R50, R146), and taking
the next row of the host's inputs.
-/

namespace Sys2Proof.Machine

/-- The whole effect of one accepted command word (R42, R50): its command's meaning, or
`raise IllegalCommand` for an illegal word (R123). -/
def acceptWord (w : Word) (s : State) : Host.Outcome State Fault Refusal :=
  match decode w with
  | .instr i => exec i s
  | .illegal _ _ => .next (raiseIllegalCommand s)

/-- The whole effect of one event (R146). -/
def takeEvent (ev : Event) (s : State) : Host.Outcome State Fault Refusal :=
  match ev with
  | .reset => .next (resetBlock s)
  | .word w => acceptWord w s

/-- One rising edge of `clk` (R42, R146): at most one event takes effect, and with none nothing
changes. A host that breaks its duty to hold a word has no step (R43, X6). -/
def risingEdge (e : EdgeIn) (s : State) : Host.Outcome State Fault Refusal :=
  match brokenHold s.held e with
  | some w => .fault (.heldWordChanged w)
  | none =>
    match eventOf e with
    | some ev => takeEvent ev { s with held := heldAfter e }
    | none => .next { s with held := heldAfter e }

/-- What stands on the input ports at the next edge. With no row left the host does nothing (log
entry 2). -/
def nextRow (s : State) : EdgeIn := s.inputs.headD idleRow

/-- The next edge, with its row taken off the host's inputs. With no row left nothing changes (R146),
but where a word is held: that word is withdrawn, which has no step (R43, X6). -/
def takeRow (s : State) : Host.Outcome State Fault Refusal :=
  risingEdge (nextRow s) { s with inputs := s.inputs.tail }

/-- The host presents the word `w` at the next edge to a block that is ready, and lets go of any
word it held before. -/
def presentNext (w : Word) (s : State) : State :=
  { s with held := none, inputs := acceptedRow w :: s.inputs }

end Sys2Proof.Machine
end

