-- ==== Sys2Proof/Machine/Step.lean ====
section
/-!
DEFINITION. The step of the machine: one rising edge (R146). It calls what Machine/Edge.lean says.
-/

namespace Sys2Proof.Machine

/-- One rising edge of `clk`, with what the host puts on the input ports there (R42, R146, R170). -/
def step (s : State) : Host.Outcome State Fault Refusal := takeRow s

/-- The state whose very next step accepts the given word (log entry 1). A command word is 16 bits
(R60), so the row's bits above 15 are none. -/
def State.withFetchWord (s : State) (nbits w : Nat) : State :=
  presentNext (BitVec.ofNat 16 (w % 2 ^ nbits)) s

end Sys2Proof.Machine
end

