-- ==== Sys2Proof/Machine/Run.lean ====
section
/-!
DEFINITION. Runs: command sequences (R54), the pseudo-instructions' command sequences (R71), event
sequences and the observation of a run (R154), and what the output ports show cycle by cycle (R53).
-/

namespace Sys2Proof.Machine

/-- Commands one after another, each on the state the earlier ones left (R54). -/
def execAll (is : List Instr) (s : State) : Host.Outcome State Fault Refusal :=
  match is with
  | [] => .next s
  | i :: is =>
    match exec i s with
    | .next t => execAll is t
    | .fault f => .fault f
    | .refused r => .refused r

/-- Events one after another, each on the state the earlier ones left (R54). -/
def runEvents (evs : List Event) (s : State) : Host.Outcome State Fault Refusal :=
  match evs with
  | [] => .next s
  | ev :: evs =>
    match takeEvent ev s with
    | .next t => runEvents evs t
    | .fault f => .fault f
    | .refused r => .refused r

/-- The events of the edges, in order: resets and accepted words (R146, R154). -/
def eventsOf (es : List EdgeIn) : List Event := es.filterMap eventOf

/-- The observation of a run: a reset, then the accepted words in order, then the three outputs
(R154). -/
def observe (ws : List Word) : Option Outputs :=
  match runEvents (.reset :: ws.map .word) State.reset with
  | .next t => some (outputsOf t.regs)
  | .fault _ => none
  | .refused _ => none

/-- What the output ports show in the cycle that each edge ends: the registers before that edge
(R53, R177), and `cmd_ready` (R44). -/
def cycleTrace (es : List EdgeIn) (s : State) : List CycleOut :=
  match es with
  | [] => []
  | e :: es =>
    { cmdReady := cmdReady e, outputs := outputsOf s.regs } ::
      match risingEdge e s with
      | .next t => cycleTrace es t
      | .fault _ => []
      | .refused _ => []

/-! ### The pseudo-instructions of R71 -/

/-- `FRAME d0, d1, c`: validate one 3-byte frame (R71, R101). -/
def frame (d0 d1 c : Byte) : List Instr := [.init, .feed d0, .feed d1, .check c]

/-- `CRCSEQ b1, ..., bn`: compute the checksum of a byte sequence (R71, R83). -/
def crcSeq (bs : List Byte) : List Instr := .init :: bs.map .feed

/-- `RESIDUE d0, d1, c`: validate a frame in the residue form (R71, R103). -/
def residue (d0 d1 c : Byte) : List Instr := [.init, .feed d0, .feed d1, .feed c, .check 0x00#8]

end Sys2Proof.Machine
end

