-- ==== Sys2Proof/Machine/Assembler.lean ====
section
/-!
DEFINITION. The assembly language of R69 to R72, on lines of characters: the assembler with its
refusals, and the disassembler. It gives no meaning to any command (D22). What R69 to R71 leave open
of the text's form is log entry 11.
-/

namespace Sys2Proof.Machine

/-- Why an assembler refuses a line (R70). -/
inductive AsmProblem where
  | unknownMnemonic
  | missingOperand
  | unexpectedOperand
  | tooManyOperands
  | operandOutOfRange
  /-- The operand is no number in the forms of R69 (log entry 11). -/
  | malformedOperand
  deriving DecidableEq, Repr

/-- A refusal, naming the line, counted from 1 (R70). -/
structure AsmError where
  line : Nat
  why : AsmProblem
  deriving DecidableEq, Repr

/-- What may stand first on a line: a mnemonic, a pseudo-instruction, or the directive `.word`
(R69 to R71). -/
inductive AsmHead where
  | command (m : Mnemonic)
  | frame
  | crcSeq
  | residue
  | word
  deriving DecidableEq, Repr

/-! ### Characters and numbers -/

def isBlank (c : Char) : Bool := c == ' ' || c == '\t' || c == '\r'

/-- The text without blanks at its end. -/
def trimRight (cs : List Char) : List Char := (cs.reverse.dropWhile isBlank).reverse

/-- The text without blanks at its two ends. -/
def trimBlanks (cs : List Char) : List Char := trimRight (cs.dropWhile isBlank)

/-- The pieces of a text between the separators. -/
def splitAtChar (sep : Char) : List Char → List (List Char)
  | [] => [[]]
  | c :: cs =>
    if c == sep then [] :: splitAtChar sep cs
    else
      match splitAtChar sep cs with
      | [] => [[c]]
      | p :: ps => (c :: p) :: ps

/-- The hexadecimal digits of the canonical form, each at the place of its value (R69). -/
def hexDigits : List Char :=
  ['0', '1', '2', '3', '4', '5', '6', '7', '8', '9', 'A', 'B', 'C', 'D', 'E', 'F']

/-- The value of a digit of the base, which is 2, 10 or 16 (R69): its place among the digits. -/
def digitValue (base : Nat) (digit : Char) : Option Nat :=
  (hexDigits.take base).idxOf? digit.toUpper

/-- Digits read from the left, after the value `acc`. -/
def digitsFrom (base acc : Nat) : List Char → Option Nat
  | [] => some acc
  | digit :: rest => (digitValue base digit).bind fun v => digitsFrom base (base * acc + v) rest

/-- A number of at least one digit. -/
def parseDigits (base : Nat) (cs : List Char) : Option Nat :=
  if cs.isEmpty then none else digitsFrom base 0 cs

/-- A number in hexadecimal (`0x5A`), binary (`0b01011010`) or decimal (`90`) (R69). -/
def parseNumber (cs : List Char) : Option Nat :=
  match cs with
  | '0' :: 'x' :: ds => parseDigits 16 ds
  | '0' :: 'b' :: ds => parseDigits 2 ds
  | ds => parseDigits 10 ds

/-- A byte operand, with a value from 0 to 255 (R69, R70). -/
def parseByte (cs : List Char) : Except AsmProblem Byte :=
  match parseNumber cs with
  | none => .error .malformedOperand
  | some n => if n ≤ 255 then .ok (BitVec.ofNat 8 n) else .error .operandOutOfRange

/-- Byte operands, each one refused as R70 says. -/
def parseBytes : List (List Char) → Except AsmProblem (List Byte)
  | [] => .ok []
  | cs :: rest =>
    match parseByte cs with
    | .error p => .error p
    | .ok b =>
      match parseBytes rest with
      | .error p => .error p
      | .ok bs => .ok (b :: bs)

/-- The four hexadecimal digits of a `.word` directive, `0xHHHH` (R70). -/
def parseWord (cs : List Char) : Except AsmProblem Word :=
  match cs with
  | '0' :: 'x' :: ds =>
    if ds.length = 4 then
      match parseDigits 16 ds with
      | some n => .ok (BitVec.ofNat 16 n)
      | none => .error .malformedOperand
    else .error .malformedOperand
  | _ => .error .malformedOperand

/-! ### One line -/

/-- The name at the head of a line, read case-insensitively (R69). -/
def parseHead (cs : List Char) : Option AsmHead :=
  let name := cs.map Char.toUpper
  if name = ['N', 'O', 'P'] then some (.command .nop)
  else if name = ['I', 'N', 'I', 'T'] then some (.command .init)
  else if name = ['F', 'E', 'E', 'D'] then some (.command .feed)
  else if name = ['C', 'H', 'E', 'C', 'K'] then some (.command .check)
  else if name = ['F', 'R', 'A', 'M', 'E'] then some .frame
  else if name = ['C', 'R', 'C', 'S', 'E', 'Q'] then some .crcSeq
  else if name = ['R', 'E', 'S', 'I', 'D', 'U', 'E'] then some .residue
  else if name = ['.', 'W', 'O', 'R', 'D'] then some .word
  else none

/-- A line that takes no operand (R69, R70). -/
def withNoOperand (ops : List (List Char)) (is : List Instr) : Except AsmProblem (List Word) :=
  if ops.isEmpty then .ok (is.map encode) else .error .unexpectedOperand

/-- A line that takes exactly one byte (R69, R70). -/
def withOneByte (ops : List (List Char)) (f : Byte → List Instr) : Except AsmProblem (List Word) :=
  match ops with
  | [] => .error .missingOperand
  | [cs] =>
    match parseByte cs with
    | .error p => .error p
    | .ok b => .ok ((f b).map encode)
  | _ => .error .tooManyOperands

/-- A line that takes exactly three bytes (R71). -/
def withThreeBytes (ops : List (List Char)) (f : Byte → Byte → Byte → List Instr) :
    Except AsmProblem (List Word) :=
  match parseBytes ops with
  | .error p => .error p
  | .ok [d0, d1, c] => .ok ((f d0 d1 c).map encode)
  | .ok bs => .error (if bs.length < 3 then .missingOperand else .tooManyOperands)

/-- The words of a line, from its head and its operands (R69 to R71). -/
def expand (head : AsmHead) (ops : List (List Char)) : Except AsmProblem (List Word) :=
  match head with
  | .command .nop => withNoOperand ops [.nop]
  | .command .init => withNoOperand ops [.init]
  | .command .feed => withOneByte ops (fun d => [.feed d])
  | .command .check => withOneByte ops (fun c => [.check c])
  | .frame => withThreeBytes ops frame
  | .residue => withThreeBytes ops residue
  | .crcSeq =>
    match parseBytes ops with
    | .error p => .error p
    | .ok bs => .ok ((crcSeq bs).map encode)
  | .word =>
    match ops with
    | [] => .error .missingOperand
    | [cs] =>
      match parseWord cs with
      | .error p => .error p
      | .ok w => .ok [w]
    | _ => .error .tooManyOperands

/-- The operands of a line: what stands after its head, between commas (R69, R71). -/
def operandsOf (rest : List Char) : List (List Char) :=
  if (trimBlanks rest).isEmpty then [] else (splitAtChar ',' rest).map trimBlanks

/-- A line without its comment, which starts at `;` (R69), and without blanks around it. -/
def codeOf (line : List Char) : List Char := trimBlanks (line.takeWhile (fun c => c != ';'))

/-- What stands first on a line. -/
def nameOn (line : List Char) : List Char := (codeOf line).takeWhile (fun c => !isBlank c)

/-- The operands on a line. -/
def operandsOn (line : List Char) : List (List Char) :=
  operandsOf ((codeOf line).dropWhile (fun c => !isBlank c))

/-- One line (R69 to R71). A line with nothing but a comment emits no word. -/
def assembleLine (line : List Char) : Except AsmProblem (List Word) :=
  if (codeOf line).isEmpty then .ok []
  else
    match parseHead (nameOn line) with
    | none => .error .unknownMnemonic
    | some head => expand head (operandsOn line)

/-! ### A whole text -/

/-- The lines from number `n` on; the first refused line is named (R70). -/
def assembleFrom (n : Nat) : List (List Char) → Except AsmError (List Word)
  | [] => .ok []
  | line :: lines =>
    match assembleLine line with
    | .error p => .error ⟨n, p⟩
    | .ok ws =>
      match assembleFrom (n + 1) lines with
      | .error e => .error e
      | .ok ws' => .ok (ws ++ ws')

/-- The words of an assembly text, in order (R69 to R71). -/
def assemble (text : List Char) : Except AsmError (List Word) :=
  assembleFrom 1 (splitAtChar '\n' text)

/-! ### The disassembler -/

/-- One upper-case hexadecimal digit. -/
def hexDigit (d : BitVec 4) : Char := hexDigits.getD d.toNat '0'

/-- Two upper-case hexadecimal digits with `0x` (R69). -/
def printByte (b : Byte) : List Char :=
  ['0', 'x', hexDigit (b.extractLsb' 4 4), hexDigit (b.extractLsb' 0 4)]

/-- The canonical form of a command (R69). -/
def printInstr (i : Instr) : List Char :=
  match i with
  | .nop => ['N', 'O', 'P']
  | .init => ['I', 'N', 'I', 'T']
  | .feed d => ['F', 'E', 'E', 'D', ' '] ++ printByte d
  | .check c => ['C', 'H', 'E', 'C', 'K', ' '] ++ printByte c

/-- An illegal word: `.word 0xHHHH ; illegal` (R72). -/
def printIllegal (w : Word) : List Char :=
  ['.', 'w', 'o', 'r', 'd', ' ', '0', 'x', hexDigit (w.extractLsb' 12 4),
    hexDigit (w.extractLsb' 8 4), hexDigit (w.extractLsb' 4 4), hexDigit (w.extractLsb' 0 4),
    ' ', ';', ' ', 'i', 'l', 'l', 'e', 'g', 'a', 'l']

/-- One word disassembled, from the decode of R66 (R72). -/
def disassemble (w : Word) : List Char :=
  match decode w with
  | .instr i => printInstr i
  | .illegal w _ => printIllegal w

end Sys2Proof.Machine
end

