-- ==== Sys2Proof/Machine/Power.lean ====
section
/-!
DEFINITION. The block from power-on (R36, R151, R173): no register has a value before the first reset
edge, so no command word and no read of an output has a step there (X1). A stopped clock is no edge
at all, so it holds the state (R151).
-/

namespace Sys2Proof.Machine

/-- One rising edge of the powered block. Before the first reset edge only a reset, or an edge at
which the host presents nothing, is in contract (R173). -/
def chipEdge (e : EdgeIn) (c : Chip) : Host.Outcome Chip Fault Refusal :=
  match c with
  | .unspecified =>
    if e.rst then .next (.live State.reset)
    else if e.cmdValid then .fault .usedBeforeReset
    else .next .unspecified
  | .live s =>
    match risingEdge e s with
    | .next t => .next (.live t)
    | .fault f => .fault f
    | .refused r => .refused r

/-- The host reads the outputs: no side effect (R52), and no value before the first reset (R173). -/
def Chip.read (c : Chip) : Host.Outcome Outputs Fault Refusal :=
  match c with
  | .unspecified => .fault .usedBeforeReset
  | .live s => .next (outputsOf s.regs)

/-- Power loss, and power back: the state is lost, and unspecified until a reset (R151). -/
def Chip.powerLoss (_ : Chip) : Chip := .unspecified

end Sys2Proof.Machine
end

