-- ==== Sys2Proof/Safety.lean ====
section
/-!
DEFINITION. What counts as a good end of a run (R153), what the host may take `CODE` for (R105), the
invariants of `STATUS` (R32), and what the registers mean in the source's own terms: the bytes fed,
the last byte checked, and whether an illegal word was seen.
-/

namespace Sys2Proof.Machine

/-- A state with `ILL` = 1 is never a good final state (R153). -/
def State.goodFinal (s : State) : Bool := !s.regs.ill

/-- The measurement code the host may use: `CODE`, only while `VALID` = 1 (R105, R152). -/
def usableCode (r : Regs) : Option Word := if r.valid then some r.code else none

/-- The invariants (a) and (b) of R32, which say that the flags spell a verdict of R102; (c) holds of
every `Regs` (R31). -/
abbrev Regs.Inv (r : Regs) : Prop :=
  (r.valid = true → r.matched = true ∧ r.done = true ∧ r.cnt = 2) ∧
    (r.matched = true → r.done = true)

/-- What has happened to the block, in the source's terms. -/
structure History where
  /-- The bytes fed since the last INIT or reset, the oldest first. -/
  fed : List Byte
  /-- The byte of the last CHECK since the last INIT, FEED or reset. -/
  checked : Option Byte
  /-- An illegal command word was seen since the last reset. -/
  illegalSeen : Bool
  deriving DecidableEq, Repr

/-- The history after a reset. -/
def History.empty : History := { fed := [], checked := none, illegalSeen := false }

/-- The history after one more event. -/
def History.add (h : History) (ev : Event) : History :=
  match ev with
  | .reset => History.empty
  | .word w =>
    match decode w with
    | .instr .nop => h
    | .instr .init => { fed := [], checked := none, illegalSeen := h.illegalSeen }
    | .instr (.feed d) => { fed := h.fed ++ [d], checked := none, illegalSeen := h.illegalSeen }
    | .instr (.check c) => { h with checked := some c }
    | .illegal _ _ => { h with illegalSeen := true }

/-- The history after one edge. -/
def History.afterEdge (h : History) (e : EdgeIn) : History := (eventOf e).elim h h.add

/-- The last two bytes, the older one high, with zeros where there are fewer (R24). -/
def lastTwo (bs : List Byte) : Word :=
  match bs.reverse with
  | [] => 0x0000#16
  | [d] => 0x00#8 ++ d
  | d1 :: d0 :: _ => d0 ++ d1

/-- The source's invariant of a frame: two data bytes whose checksum is the third byte (R101). -/
def validFrame (d0 d1 c : Byte) : Bool := crc8 [d0, d1] == c

/-- The number of bits set in a 3-byte frame (R91). -/
def frameWeight (d0 d1 c : Byte) : Nat :=
  ((List.range 8).filter (fun i => d0.getLsbD i)).length +
    ((List.range 8).filter (fun i => d1.getLsbD i)).length +
    ((List.range 8).filter (fun i => c.getLsbD i)).length

/-- The registers a history calls for (R24, R26 to R30, R82, R106). -/
def History.regs (h : History) : Regs :=
  { crc := crc8 h.fed
    code := lastTwo h.fed
    done := h.checked.isSome
    matched := h.checked == some (crc8 h.fed)
    valid := h.checked == some (crc8 h.fed) && h.fed.length == 2
    ill := h.illegalSeen
    cnt := if h.fed.length = 0 then 0 else if h.fed.length = 1 then 1
      else if h.fed.length = 2 then 2 else 3 }

end Sys2Proof.Machine
end

