-- ==== Sys2Proof/Certificates/Slice0/Obligations.lean ====
section
/-!
DEFINITION. The statements about the model, for the provers. Each docstring names the rules of spec/
it formalises.
-/

open Sys2Proof Sys2Proof.Machine

/-! ### Reset and edges -/

/-- R38: the values after reset, field by field, and the whole `STATUS` byte; they are what INIT leaves
where `ILL` is 0. -/
def Obligations.ResetStateHoldsTheResetValues : Prop :=
  State.reset.regs.crc = 0x00#8 ∧ State.reset.regs.code = 0x0000#16 ∧
    State.reset.regs.done = false ∧ State.reset.regs.matched = false ∧
    State.reset.regs.valid = false ∧ State.reset.regs.ill = false ∧ State.reset.regs.cnt = 0 ∧
    State.reset.regs.status = 0x00#8 ∧
    ∀ s : State, s.regs.ill = false → ∃ t, exec .init s = .next t ∧ t.regs = State.reset.regs

/-- R38, R170: at every edge with `rst` = 1 every register takes its reset value, whatever word is
presented or held; no word is accepted there. -/
def Obligations.ResetEdgeGivesEveryRegisterItsResetValue : Prop :=
  ∀ (s : State) (e : EdgeIn) (rest : List EdgeIn), s.inputs = e :: rest → e.rst = true →
    accepts e = false ∧ ∃ t : State, step s = .next t ∧ t.inputs = rest ∧ t.held = none ∧
      t.regs.crc = 0x00#8 ∧ t.regs.code = 0x0000#16 ∧ t.regs.done = false ∧
      t.regs.matched = false ∧ t.regs.valid = false ∧ t.regs.ill = false ∧ t.regs.cnt = 0 ∧
      t.regs.status = 0x00#8

/-- R42, R146: at one edge at most one event takes effect: the reset, else the accepted word, which is
one command or an illegal word, else nothing; and within a CHECK the checksum mismatch goes before the
length mismatch. -/
def Obligations.OneEventTakesEffectAtAnEdge : Prop :=
  (∀ (s : State) (e : EdgeIn) (rest : List EdgeIn), s.inputs = e :: rest →
    brokenHold s.held e = none →
      (e.rst = true → step s = .next { regs := Regs.reset, held := none, inputs := rest }) ∧
      (e.rst = false → e.cmdValid = true → cmdReady e = true →
        (∃ i, decode e.cmd = .instr i ∧
          step s = exec i { s with held := none, inputs := rest }) ∨
        (∃ why, decode e.cmd = .illegal e.cmd why) ∧
          step s = .next { regs := { s.regs with ill := true }, held := none, inputs := rest }) ∧
      (e.rst = false → ¬(e.cmdValid = true ∧ cmdReady e = true) →
        ∃ h, step s = .next { regs := s.regs, held := h, inputs := rest })) ∧
  ∀ (s : State) (c : Byte), s.regs.crc ≠ c →
    ∃ t, exec (.check c) s = .next t ∧ t.regs.matched = false ∧ t.regs.valid = false ∧
      t.regs.status.extractLsb' 0 3 = 0b001#3

/-- R42, R50: a step at which a word is accepted is `exec` of the command the word decodes to, on the
state with the row taken off and no word held. -/
def Obligations.StepRunsTheDecodedCommand : Prop :=
  ∀ (s : State) (e : EdgeIn) (rest : List EdgeIn) (i : Instr), s.inputs = e :: rest →
    brokenHold s.held e = none → e.rst = false → e.cmdValid = true → e.stall = false →
    decode e.cmd = .instr i → step s = exec i { s with held := none, inputs := rest }

/-- R43: a word not accepted is ignored; once presented it is held; a host that changes or withdraws
it, with `rst` = 0, also by doing nothing once its rows are used up, has no step (X6 calls it stuck).
That this is a fault, and its name, is the model's choice (log entry 4). -/
def Obligations.HostMustHoldThePresentedWord : Prop :=
  (∀ (s : State) (w : Word), s.inputs = [] → s.held = some w →
    step s = .fault (.heldWordChanged w)) ∧
  ∀ (s : State) (e : EdgeIn) (rest : List EdgeIn), s.inputs = e :: rest →
    (∀ w, s.held = some w → e.rst = false → ¬(e.cmdValid = true ∧ e.cmd = w) →
      step s = .fault (.heldWordChanged w)) ∧
    (s.held = none ∨ e.rst = true → accepts e = false → ∀ w, ∃ t u, step s = .next t ∧
      step { s with inputs := { e with cmd := w } :: rest } = .next u ∧ t.regs = u.regs) ∧
    (brokenHold s.held e = none → e.rst = false → e.cmdValid = true → cmdReady e = false →
      ∃ t, step s = .next t ∧ t.held = some e.cmd ∧ t.regs = s.regs)

/-- R140, R147, X6: no condition of the block stops it; a step has no next state only where the host
breaks its duty to hold a word, and nothing is refused (log entry 4). -/
def Obligations.OnlyABrokenHoldStopsTheMachine : Prop :=
  ∀ s : State, (∃ t, step s = .next t) ∨
    ∃ w : Word, s.held = some w ∧ (nextRow s).rst = false ∧
      ¬((nextRow s).cmdValid = true ∧ (nextRow s).cmd = w) ∧ step s = .fault (.heldWordChanged w)

/-- R172: while `rst` = 1 the host may present, change or withdraw any word, whatever it held before; a
word presented after the reset, the same one or another, is accepted then and acts on the reset state;
where it is not accepted at once, it must be held again. -/
def Obligations.PresentedWordIsAcceptedAfterTheReset : Prop :=
  ∀ (s : State) (v w : Word) (p x : Bool) (rest : List EdgeIn),
    (s.inputs = ⟨true, p, v, x⟩ :: ⟨false, true, w, false⟩ :: rest →
      Host.Core.run Sys2Proof.core 2 s =
        acceptWord w { regs := Regs.reset, held := none, inputs := rest }) ∧
    (s.inputs = ⟨true, p, v, x⟩ :: ⟨false, true, w, true⟩ :: rest →
      Host.Core.run Sys2Proof.core 2 s =
        .next { regs := Regs.reset, held := some w, inputs := rest })

/-- R44: `cmd_ready` is 0 while `rst` = 1, does not depend on `cmd`, and with `rst` = 0 is 1 exactly
where the block does not stall. Under the premise that the stalls keep the bound `P_BUSY`, which the
model takes from the rows and does not enforce (log entry 3), it is low with `rst` = 0 in at most
`P_BUSY` cycles in a row, and never with `P_BUSY` = 0. -/
def Obligations.ReadyIsLowForAtMostBusyCycles : Prop :=
  (∀ e : EdgeIn, (e.rst = true → cmdReady e = false) ∧
    (e.rst = false → (cmdReady e = true ↔ e.stall = false)) ∧
    ∀ w, cmdReady { e with cmd := w } = cmdReady e) ∧
  (∀ (pBusy : Nat) (pre run post : List EdgeIn), stallsWithin pBusy (pre ++ run ++ post) = true →
    (∀ e ∈ run, e.rst = false ∧ cmdReady e = false) → run.length ≤ pBusy) ∧
  ∀ es : List EdgeIn, stallsWithin Config.referenceBusy es = true →
    ∀ e ∈ es, e.rst = false → cmdReady e = true

/-- R178: a word that the host presents and holds is accepted within `P_BUSY` further cycles, has then
its whole effect, and until then no register changes. -/
def Obligations.HeldWordIsAcceptedWithinTheBusyBound : Prop :=
  ∀ (pBusy : Nat) (w : Word) (s : State) (es rest : List EdgeIn),
    s.inputs = es ++ rest → es.length = pBusy + 1 →
    (∀ e ∈ es, e.rst = false ∧ e.cmdValid = true ∧ e.cmd = w) →
    stallsWithin pBusy es = true → (s.held = none ∨ s.held = some w) →
    ∃ k ≤ pBusy, (∀ j ≤ k, ∃ u, Host.Core.run Sys2Proof.core j s = .next u ∧ u.regs = s.regs) ∧
      Host.Core.run Sys2Proof.core (k + 1) s =
        acceptWord w { s with held := none, inputs := s.inputs.drop (k + 1) }

/-! ### Runs and outputs -/

/-- R54: over any edges at which the host keeps its duty, the machine answers a next state, and its
registers and outputs are those of the resets and accepted words applied in order, nothing else. -/
def Obligations.EdgesApplyTheAcceptedWordsInOrder : Prop :=
  ∀ (s : State) (es rest : List EdgeIn), s.inputs = es ++ rest → keepsDuty s.held es = true →
    ∃ t, runEvents (eventsOf es) s = .next t ∧
      Host.Core.run Sys2Proof.core es.length s =
        .next { regs := t.regs, held := heldAfterRows s.held es, inputs := rest }

/-- R35: two machines with the same registers and the same resets and accepted words end with the
same registers, however the words were stalled and whatever else stood on the ports. -/
def Obligations.StallsNeverChangeWhatWordsDo : Prop :=
  ∀ (s s' : State) (es es' rest rest' : List EdgeIn), s.regs = s'.regs →
    s.inputs = es ++ rest → s'.inputs = es' ++ rest' →
    keepsDuty s.held es = true → keepsDuty s'.held es' = true → eventsOf es = eventsOf es' →
    ∃ t t', Host.Core.run Sys2Proof.core es.length s = .next t ∧
      Host.Core.run Sys2Proof.core es'.length s' = .next t' ∧ t.regs = t'.regs

/-- R53, R177: in the cycle that an edge ends, the outputs show every word accepted at an earlier edge
and none accepted at this or a later one. -/
def Obligations.OutputsShowExactlyTheEarlierEdges : Prop :=
  ∀ (s : State) (pre post : List EdgeIn) (e : EdgeIn), keepsDuty s.held pre = true →
    ∃ t, runEvents (eventsOf pre) s = .next t ∧
      (cycleTrace (pre ++ e :: post) s)[pre.length]? =
        some { cmdReady := cmdReady e, outputs := outputsOf t.regs }

/-- R154: the observation of a run is a function of its accepted words alone: a reset followed by the
words ends, from any state, with the outputs observed. -/
def Obligations.ObservationDependsOnTheWordsAlone : Prop :=
  observe [] = some ⟨0x00#8, 0x0000#16, 0x00#8⟩ ∧
  ∀ (ws : List Word) (s : State), ∃ t, runEvents (.reset :: ws.map .word) s = .next t ∧
    observe ws = some (outputsOf t.regs)

/-- R36, R151, R170, R171, R173: from power-on nothing but a reset gives the block a state; one reset
edge is enough, more keep it; a word or a read before it has no step, and an edge at which the host does
nothing leaves the block without a state (log entry 5); power loss loses the state. -/
def Obligations.PowerOnHasNoStateBeforeTheFirstReset : Prop :=
  (∀ e : EdgeIn, e.rst = true → chipEdge e .unspecified = .next (.live State.reset)) ∧
  (∀ e : EdgeIn, e.rst = false → e.cmdValid = true →
    chipEdge e .unspecified = .fault .usedBeforeReset) ∧
  (∀ e : EdgeIn, e.rst = false → e.cmdValid = false →
    chipEdge e .unspecified = .next .unspecified) ∧
  Chip.unspecified.read = .fault .usedBeforeReset ∧
  (∀ (e : EdgeIn) (s : State), e.rst = true → ∃ t, chipEdge e (.live s) = .next (.live t) ∧
    t.regs = Regs.reset ∧ (Chip.live t).read = .next ⟨0x00#8, 0x0000#16, 0x00#8⟩) ∧
  (∀ s : State, (Chip.live s).read = .next (outputsOf s.regs)) ∧
  ∀ c : Chip, c.powerLoss = .unspecified

/-! ### The encoding -/

/-- R63, R64: four words written out from the patterns, and the command each stands for. -/
def Obligations.TableWordsDecodeToTheirCommands : Prop :=
  decode 0b0000000000000000#16 = .instr .nop ∧ decode 0b0000000100000000#16 = .instr .init ∧
    decode 0b0000001001011010#16 = .instr (.feed 0x5A#8) ∧
    decode 0b0000001110101010#16 = .instr (.check 0xAA#8)

/-- R60 to R66: the decoder gives back every command from its word, with every value of the byte. -/
def Obligations.DecodeOfEncodeIsTheCommand : Prop :=
  ∀ i : Instr, decode (encode i) = .instr i ∧ legalWord (encode i) = true

/-- R66: no word decodes to two commands, and no two words to one: a word that decodes to a command is
that command's word. -/
def Obligations.LegalWordIsTheEncodingOfItsCommand : Prop :=
  ∀ (w : Word) (i : Instr), decode w = .instr i → encode i = w

/-- R64: a word selects a row when `(w & mask) == match`; at most one row matches; the decoder answers
a row's command exactly when the row matches; and which words are legal, 514 in all (R63). -/
def Obligations.DecoderFollowsTheMatchAndMaskRows : Prop :=
  rows.map (fun r => (r.mnemonic, r.pattern, r.mask)) =
    [(.nop, 0x0000#16, 0xFFFF#16), (.init, 0x0100#16, 0xFFFF#16), (.feed, 0x0200#16, 0xFF00#16),
      (.check, 0x0300#16, 0xFF00#16)] ∧
  countWords legalWord = 514 ∧
  ∀ w : Word, (rows.filter (fun r => r.selects w)).length ≤ 1 ∧
    (∀ r ∈ rows, r.selects w = true ↔ w &&& r.mask = r.pattern) ∧
    (∀ r ∈ rows, r.selects w = true ↔ ∃ i, decode w = .instr i ∧ i.mnemonic = r.mnemonic) ∧
    (legalWord w = true ↔
      w.toNat = 0x0000 ∨ w.toNat = 0x0100 ∨ 0x0200 ≤ w.toNat ∧ w.toNat ≤ 0x03FF)

/-- R65: a word that matches no row is illegal, and is in exactly one of three classes, of 61,440,
3,072 and 510 words, 65,022 in all; and each has the one effect of R123. -/
def Obligations.IllegalWordsFallIntoTheThreeClasses : Prop :=
  (∀ w : Word, ((∀ r ∈ rows, r.selects w = false) ↔ legalWord w = false) ∧
    (legalWord w = false ↔ ∃ why, decode w = .illegal w why) ∧
    (legalWord w = false → ∀ s : State,
      acceptWord w s = .next { s with regs := { s.regs with ill := true } }) ∧
    (decode w = .illegal w .reservedBits ↔ w.extractLsb' 12 4 ≠ 0#4) ∧
    (decode w = .illegal w .unassignedOp ↔
      w.extractLsb' 12 4 = 0#4 ∧ 4 ≤ (w.extractLsb' 8 4).toNat) ∧
    (decode w = .illegal w .unexpectedData ↔
      w.extractLsb' 12 4 = 0#4 ∧ (w.extractLsb' 8 4).toNat < 2 ∧ w.extractLsb' 0 8 ≠ 0#8)) ∧
  countWords (fun w => decide (decode w = .illegal w .reservedBits)) = 61440 ∧
  countWords (fun w => decide (decode w = .illegal w .unassignedOp)) = 3072 ∧
  countWords (fun w => decide (decode w = .illegal w .unexpectedData)) = 510 ∧
  countWords (fun w => !legalWord w) = 65022

/-! ### The commands -/

/-- R120: NOP, its one word, and its effect: no register is written. -/
def Obligations.NopWritesNoRegister : Prop :=
  (∀ w : Word, w &&& 0xFFFF#16 = 0x0000#16 → decode w = .instr .nop) ∧
  (∀ d : Byte, d ≠ 0#8 → decode (0x00#8 ++ d) = .illegal (0x00#8 ++ d) .unexpectedData) ∧
  ∀ s : State, exec .nop s = .next s

/-- R121: INIT, its one word, and its effect: everything cleared but `ILL`. -/
def Obligations.InitStartsANewComputation : Prop :=
  (∀ w : Word, w &&& 0xFFFF#16 = 0x0100#16 → decode w = .instr .init) ∧
  (∀ d : Byte, d ≠ 0#8 → decode (0x01#8 ++ d) = .illegal (0x01#8 ++ d) .unexpectedData) ∧
  ∀ s : State, exec .init s = .next
    { regs := { crc := 0x00#8, code := 0x0000#16, done := false, matched := false, valid := false,
                ill := s.regs.ill, cnt := 0 }
      held := s.held
      inputs := s.inputs }

/-- R92: FEED, its 256 words, all legal, and its effect; `ILL` and the host's side are unchanged. -/
def Obligations.FeedAbsorbsOneByte : Prop :=
  (∀ w : Word, w &&& 0xFF00#16 = 0x0200#16 → decode w = .instr (.feed (w.extractLsb' 0 8))) ∧
  ∀ (s : State) (d : Byte), ∃ n : Fin 4, n.val = min (s.regs.cnt.val + 1) 3 ∧
    exec (.feed d) s = .next
      { regs := { crc := crcByte s.regs.crc d
                  code := s.regs.code.extractLsb' 0 8 ++ d
                  done := false, matched := false, valid := false
                  ill := s.regs.ill
                  cnt := n }
        held := s.held
        inputs := s.inputs }

/-- R100: CHECK, its 256 words, all legal, and its effect; `CRC`, `CODE`, `CNT`, `ILL` and the host's
side are unchanged. -/
def Obligations.CheckRecordsTheVerdict : Prop :=
  (∀ w : Word, w &&& 0xFF00#16 = 0x0300#16 → decode w = .instr (.check (w.extractLsb' 0 8))) ∧
  ∀ (s : State) (c : Byte), exec (.check c) s = .next
    { regs := { crc := s.regs.crc
                code := s.regs.code
                done := true
                matched := decide (s.regs.crc = c)
                valid := decide (s.regs.crc = c ∧ s.regs.cnt = 2)
                ill := s.regs.ill
                cnt := s.regs.cnt }
      held := s.held
      inputs := s.inputs }

/-- R123: every word that matches no row, accepted in any state, sets `ILL` and changes nothing else;
the block goes on, and no further word takes `ILL` back to 0. -/
def Obligations.IllegalWordOnlySetsIll : Prop :=
  (∀ (s : State) (e : EdgeIn) (rest : List EdgeIn), s.inputs = e :: rest →
    brokenHold s.held e = none → accepts e = true →
    (∀ r ∈ rows, e.cmd &&& r.mask ≠ r.pattern) →
    step s = .next { regs := { s.regs with ill := true }, held := none, inputs := rest }) ∧
  ∀ (s : State) (ws : List Word), s.regs.ill = true →
    ∃ t, runEvents (ws.map .word) s = .next t ∧ t.regs.ill = true

/-- R102, R142, R143: what `DONE`, `MATCH` and `VALID` say after a CHECK, with the codes in
`STATUS[2:0]`; and a CHECK changes nothing but those three flags. -/
def Obligations.CheckSpellsOneOfThreeVerdicts : Prop :=
  ∀ (s : State) (c : Byte), ∃ t, exec (.check c) s = .next t ∧
    (∃ m v, t = { s with regs := { s.regs with done := true, matched := m, valid := v } }) ∧
    (s.regs.crc ≠ c →
      t.regs.verdict = some .checksumMismatch ∧ t.regs.status.extractLsb' 0 3 = 0b001#3) ∧
    (s.regs.crc = c → s.regs.cnt ≠ 2 →
      t.regs.verdict = some .lengthMismatch ∧ t.regs.status.extractLsb' 0 3 = 0b011#3) ∧
    (s.regs.crc = c → s.regs.cnt = 2 →
      t.regs.verdict = some .validFrame ∧ t.regs.status.extractLsb' 0 3 = 0b111#3)

/-- R104: a second CHECK replaces the verdict of the first; NOP and illegal words keep a verdict. -/
def Obligations.LaterCheckReplacesTheVerdict : Prop :=
  (∀ (s : State) (a b : Byte), ∃ t, execAll [.check a, .check b] s = .next t ∧
    exec (.check b) s = .next t) ∧
  ∀ (s : State) (evs : List Event),
    (∀ ev ∈ evs, ∃ w, ev = .word w ∧ (decode w = .instr .nop ∨ legalWord w = false)) →
    ∃ t, runEvents evs s = .next t ∧ t.regs.done = s.regs.done ∧
      t.regs.matched = s.regs.matched ∧ t.regs.valid = s.regs.valid

/-- R122: INIT and reset differ in `ILL` only, so a host that has sent no illegal word since a reset
cannot tell them apart. -/
def Obligations.InitAndResetDifferInIllOnly : Prop :=
  (∀ s : State, ∃ t, exec .init s = .next t ∧
    (resetBlock s).regs = { t.regs with ill := false } ∧ t.regs.ill = s.regs.ill) ∧
  ∀ (s : State) (ws : List Word), (∀ w ∈ ws, legalWord w = true) →
    ∃ t u, runEvents (.reset :: ws.map .word) s = .next t ∧ exec .init t = .next u ∧
      outputsOf (resetBlock t).regs = outputsOf u.regs

/-! ### STATUS -/

/-- R25, R31: where each field stands in `STATUS`, and the two bits that always read 0. -/
def Obligations.StatusByteHoldsTheFieldsInPlace : Prop :=
  ∀ r : Regs, r.status.getLsbD 0 = r.done ∧ r.status.getLsbD 1 = r.matched ∧
    r.status.getLsbD 2 = r.valid ∧ r.status.getLsbD 3 = r.ill ∧
    (r.status.extractLsb' 4 2).toNat = r.cnt.val ∧ r.status.extractLsb' 6 2 = 0#2

/-- R32: every step keeps the invariants of `STATUS`, from every state that meets them; so the flags
always spell one of the verdicts. -/
def Obligations.EveryStepKeepsTheStatusInvariants : Prop :=
  ∀ s t : State, s.regs.Inv → step s = .next t →
    t.regs.Inv ∧ t.regs.status.extractLsb' 6 2 = 0#2 ∧ t.regs.verdict ≠ none

/-- R32: the reset state meets the invariants of `STATUS`. -/
def Obligations.ResetMeetsTheStatusInvariants : Prop :=
  State.reset.regs.Inv ∧ State.reset.regs.status.extractLsb' 6 2 = 0#2

/-- R30: in one step `ILL` rises exactly at an accepted illegal word and falls exactly at a reset
edge. -/
def Obligations.IllRisesOnIllegalWordsAndFallsOnReset : Prop :=
  ∀ s t : State, step s = .next t →
    (s.regs.ill = false → (t.regs.ill = true ↔
      ∃ e rest, s.inputs = e :: rest ∧ accepts e = true ∧ legalWord e.cmd = false)) ∧
    (s.regs.ill = true → (t.regs.ill = false ↔ ∃ e rest, s.inputs = e :: rest ∧ e.rst = true))

/-- R20, R21, R23, R25 to R29: in one step with `rst` = 0 a register changes only where an accepted
word is a command that writes it; so none changes once the host's rows are used up (log entry 2). -/
def Obligations.RegistersChangeOnlyByTheCommandsThatWriteThem : Prop :=
  ∀ (s t : State) (e : EdgeIn), nextRow s = e → e.rst = false → step s = .next t →
    (t.regs.crc ≠ s.regs.crc ∨ t.regs.code ≠ s.regs.code ∨ t.regs.cnt ≠ s.regs.cnt →
      accepts e = true ∧ (decode e.cmd = .instr .init ∨ ∃ d, decode e.cmd = .instr (.feed d))) ∧
    (t.regs.done ≠ s.regs.done ∨ t.regs.matched ≠ s.regs.matched ∨ t.regs.valid ≠ s.regs.valid →
      accepts e = true ∧ (decode e.cmd = .instr .init ∨ (∃ d, decode e.cmd = .instr (.feed d)) ∨
        ∃ c, decode e.cmd = .instr (.check c))) ∧
    ((∃ c, decode e.cmd = .instr (.check c)) → t.regs.crc = s.regs.crc ∧
      t.regs.code = s.regs.code ∧ t.regs.cnt = s.regs.cnt ∧ t.regs.ill = s.regs.ill)

/-- R123: the block acts, `ILL` apart, as if the illegal words were absent. -/
def Obligations.IllegalWordsLeaveTheComputationAlone : Prop :=
  ∀ (s : State) (evs : List Event), ∃ t u, runEvents evs s = .next t ∧
    runEvents (evs.filter (fun ev => match ev with
      | .reset => true
      | .word w => legalWord w)) s = .next u ∧
    { t.regs with ill := u.regs.ill } = u.regs

/-- R30, R123, R141, R153: a run of words ends in a good final state exactly when none of its words is
illegal. -/
def Obligations.RunEndsGoodExactlyWithoutIllegalWords : Prop :=
  ∀ (s : State) (ws : List Word), ∃ t, runEvents (.reset :: ws.map .word) s = .next t ∧
    (t.goodFinal = true ↔ ∀ w ∈ ws, legalWord w = true)

/-! ### The checksum functions -/

/-- R80, R84: one bit step, on natural numbers as the source says it, and in the 8-bit form. -/
def Obligations.BitStepShiftsAndXorsThePolynomial : Prop :=
  ∀ r : Byte,
    (crcBit r).toNat =
      (if r.getLsbD 7 = true then (r.toNat <<< 1) ^^^ 0x131 else r.toNat <<< 1) ∧
    crcBit r = (r <<< 1) ^^^ (if r.getLsbD 7 = true then 0x31#8 else 0x00#8)

/-- R81, R82: the whole byte is XORed in and then exactly eight bit steps follow; the checksum starts
from 0x00 and takes the bytes in order. -/
def Obligations.ChecksumTakesTheBytesInOrder : Prop :=
  (∀ r d : Byte, crcByte r d = crcBit^[8] (r ^^^ d)) ∧ crc8 [] = 0x00#8 ∧
    ∀ (bs : List Byte) (b : Byte), crc8 (bs ++ [b]) = crcByte (crc8 bs) b

/-- R85: the update depends on register and byte only through their XOR, and is the printed table. -/
def Obligations.ByteUpdateIsThePrintedTable : Prop :=
  ∀ r d : Byte, crcByte r d = crcTable (r ^^^ d) ∧ crcTable d = crcByte 0x00#8 d

/-- R45: within a byte, bit 7 is consumed first and bit 0 last, each one entering at the top of the
register. -/
def Obligations.ByteIsConsumedMostSignificantBitFirst : Prop :=
  ∀ r d : Byte, crcByte r d =
    [7, 6, 5, 4, 3, 2, 1, 0].foldl
      (fun (x : Byte) (k : Nat) =>
        (x <<< 1) ^^^ (if (x.getLsbD 7 ^^ d.getLsbD k) = true then 0x31#8 else 0x00#8)) r

/-- R87: the update is linear over GF(2), and so is the checksum over sequences of one length. -/
def Obligations.ChecksumIsLinear : Prop :=
  (∀ r1 r2 d1 d2 : Byte,
    crcByte (r1 ^^^ r2) (d1 ^^^ d2) = crcByte r1 d1 ^^^ crcByte r2 d2) ∧
  ∀ as bs : List Byte, as.length = bs.length →
    crc8 (List.zipWith (fun a b => a ^^^ b) as bs) = crc8 as ^^^ crc8 bs

/-- R88: the checksum of zero bytes is zero, whatever their number. -/
def Obligations.ChecksumOfZeroBytesIsZero : Prop :=
  ∀ n : Nat, crc8 (List.replicate n 0x00#8) = 0x00#8

/-- R89: from each register value each result comes from exactly one byte. -/
def Obligations.ByteUpdateIsABijection : Prop :=
  ∀ r : Byte, Function.Bijective (fun d => crcByte r d)

/-- R90: a sequence followed by its own checksum leaves 0x00. -/
def Obligations.ResidueOfASequenceWithItsChecksumIsZero : Prop :=
  ∀ bs : List Byte, crc8 (bs ++ [crc8 bs]) = 0x00#8

/-- An 8-bit value as a polynomial over GF(2): bit i is the coefficient of x^i (R86). -/
noncomputable def Sys2Proof.polyOf (v : Byte) : Polynomial (ZMod 2) :=
  (Finset.range 8).sum (fun i => if v.getLsbD i then Polynomial.X ^ i else 0)

/-- P(x) = x^8 + x^5 + x^4 + 1 (R2, R86). -/
noncomputable def Sys2Proof.crcPoly : Polynomial (ZMod 2) :=
  Polynomial.X ^ 8 + Polynomial.X ^ 5 + Polynomial.X ^ 4 + 1

/-- A message's 8n bits read as one polynomial, bit 7 of its first byte the highest power (R86). -/
noncomputable def Sys2Proof.messagePoly (bs : List Byte) : Polynomial (ZMod 2) :=
  bs.foldl (fun m b => m * Polynomial.X ^ 8 + Sys2Proof.polyOf b) 0

/-- R86: a bit step is multiplication by x modulo P, a byte update by x^8, and the checksum is the
remainder of the message times x^8. -/
def Obligations.ChecksumIsThePolynomialRemainder : Prop :=
  (∀ r : Byte, polyOf (crcBit r) = (Polynomial.X * polyOf r).modByMonic crcPoly) ∧
  (∀ r d : Byte, polyOf (crcByte r d) =
    (Polynomial.X ^ 8 * (polyOf r + polyOf d)).modByMonic crcPoly) ∧
  ∀ bs : List Byte, polyOf (crc8 bs) = (messagePoly bs * Polynomial.X ^ 8).modByMonic crcPoly

/-- R91: a single-bit error in a 2-byte payload changes the checksum; a nonzero valid frame has at
least 4 bits set; an error of 1, 2 or 3 bits, or of any odd number of bits, anywhere in a valid frame
makes it invalid. -/
def Obligations.SmallAndOddErrorsAreDetected : Prop :=
  (∀ (p : Word) (k : Nat), k < 16 →
    crc8 [(p ^^^ (1#16 <<< k)).extractLsb' 8 8, (p ^^^ (1#16 <<< k)).extractLsb' 0 8] ≠
      crc8 [p.extractLsb' 8 8, p.extractLsb' 0 8]) ∧
  (∀ d0 d1 c : Byte, validFrame d0 d1 c = true → ¬(d0 = 0#8 ∧ d1 = 0#8 ∧ c = 0#8) →
    4 ≤ frameWeight d0 d1 c) ∧
  ∀ d0 d1 c e0 e1 ec : Byte, validFrame d0 d1 c = true →
    (1 ≤ frameWeight e0 e1 ec ∧ frameWeight e0 e1 ec ≤ 3 ∨ frameWeight e0 e1 ec % 2 = 1) →
    validFrame (d0 ^^^ e0) (d1 ^^^ e1) (c ^^^ ec) = false

/-! ### Frames and sequences -/

/-- R101: after FRAME, from any state, `VALID` = 1 exactly when the frame is valid in the source's
sense, `CODE` is the frame's code, `MATCH` = `VALID`, `CNT` = 2; the same from a reset instead of
INIT. -/
def Obligations.FrameIsValidExactlyWhenItsChecksumAgrees : Prop :=
  ∀ (s : State) (d0 d1 c : Byte),
    (∃ t, execAll (frame d0 d1 c) s = .next t ∧ (t.regs.valid = true ↔ crc8 [d0, d1] = c) ∧
      t.regs.code = d0 ++ d1 ∧ t.regs.matched = t.regs.valid ∧ t.regs.cnt = 2) ∧
    ∃ t, execAll [.feed d0, .feed d1, .check c] (resetBlock s) = .next t ∧
      (t.regs.valid = true ↔ crc8 [d0, d1] = c) ∧
      t.regs.code = d0 ++ d1 ∧ t.regs.matched = t.regs.valid ∧ t.regs.cnt = 2

/-- R103: after RESIDUE `MATCH` = 1 exactly when the frame's checksum agrees, `VALID` = 0, `CNT` = 3
and `CODE` is not the frame's code but its last two bytes. -/
def Obligations.ResidueFormGivesTheChecksumVerdictOnly : Prop :=
  ∀ (s : State) (d0 d1 c : Byte), ∃ t, execAll (residue d0 d1 c) s = .next t ∧
    (t.regs.matched = true ↔ crc8 [d0, d1] = c) ∧ t.regs.valid = false ∧ t.regs.cnt = 3 ∧
    t.regs.code = d1 ++ c

/-- R106: INIT, n FEEDs and a CHECK compare the byte with the checksum of the n bytes, for every n,
and `VALID` is 1 only when n = 2. -/
def Obligations.CheckComparesSequencesOfAnyLength : Prop :=
  ∀ (s : State) (bs : List Byte) (c : Byte), ∃ t, execAll (crcSeq bs ++ [.check c]) s = .next t ∧
    (t.regs.matched = true ↔ crc8 bs = c) ∧
    (t.regs.valid = true ↔ crc8 bs = c ∧ bs.length = 2) ∧ t.regs.crc = crc8 bs

/-- R24, R47: `CODE` after INIT and n FEEDs, and from a reset: the last two bytes fed, the older one
high; taken as two bytes it gives the first data byte and then the second. -/
def Obligations.CodeHoldsTheLastTwoBytesFed : Prop :=
  ∀ (s : State) (start : State), start = resetBlock s ∨ exec .init s = .next start →
    (∀ d0 : Byte, ∃ t, execAll [.feed d0] start = .next t ∧ t.regs.code = 0x00#8 ++ d0) ∧
    (∀ d0 d1 : Byte, ∃ t, execAll [.feed d0, .feed d1] start = .next t ∧
      t.regs.code = d0 ++ d1 ∧ t.regs.code.toNat = d0.toNat * 256 + d1.toNat ∧
      codeBytes t.regs.code = (d0, d1)) ∧
    ∀ (bs : List Byte) (x y : Byte), ∃ t, execAll ((bs ++ [x, y]).map .feed) start = .next t ∧
      t.regs.code = x ++ y

/-- R24, R26 to R30, R82, R106: whatever happens, the registers are those the history calls for: the
checksum and the last two of the bytes fed, their number up to 3, and the last CHECK's verdict. -/
def Obligations.RegistersAlwaysMatchTheHistory : Prop :=
  ∀ (h : History) (s : State) (evs : List Event), s.regs = h.regs →
    ∃ t, runEvents evs s = .next t ∧ t.regs = (evs.foldl History.add h).regs

/-- R32, R101, R105: in every state the edges lead to from a reset, `VALID` = 1 means that exactly two
bytes were fed since the last INIT or reset, that the last CHECK compared their checksum and found it
equal, and that `CODE` is their code. -/
def Obligations.ValidMeansAValidFrameWasChecked : Prop :=
  ∀ (es rest : List EdgeIn) (s t : State), s.regs = Regs.reset → s.inputs = es ++ rest →
    Host.Core.run Sys2Proof.core es.length s = .next t → t.regs.valid = true →
    ∃ d0 d1 c, ((eventsOf es).foldl History.add History.empty).fed = [d0, d1] ∧
      ((eventsOf es).foldl History.add History.empty).checked = some c ∧
      validFrame d0 d1 c = true ∧ usableCode t.regs = some (d0 ++ d1)

/-! ### The assembly language -/

/-- R72: every word, legal or not, is assembled back from its disassembly; and the canonical printed
forms, with upper-case hexadecimal digits. -/
def Obligations.AssemblingADisassemblyGivesTheWord : Prop :=
  (∀ w : Word, assembleLine (disassemble w) = .ok [w]) ∧
  disassemble (encode .nop) = "NOP".toList ∧ disassemble (encode .init) = "INIT".toList ∧
  (∀ d : Byte, disassemble (encode (.feed d)) =
    "FEED 0x".toList ++ [hexDigit (d.extractLsb' 4 4), hexDigit (d.extractLsb' 0 4)]) ∧
  (∀ c : Byte, disassemble (encode (.check c)) =
    "CHECK 0x".toList ++ [hexDigit (c.extractLsb' 4 4), hexDigit (c.extractLsb' 0 4)]) ∧
  (∀ w : Word, legalWord w = false → disassemble w =
    ".word 0x".toList ++ [hexDigit (w.extractLsb' 12 4), hexDigit (w.extractLsb' 8 4),
      hexDigit (w.extractLsb' 4 4), hexDigit (w.extractLsb' 0 4)] ++ " ; illegal".toList) ∧
  (List.range 16).map (fun k => hexDigit (BitVec.ofNat 4 k)) = "0123456789ABCDEF".toList

/-- R70: an assembler refuses a line with an unknown mnemonic, with an operand for NOP or INIT, with a
missing, a second or an out-of-range operand of FEED or CHECK, and names the line; but for `.word`,
which emits its value as it stands, a line emits legal words only. What the name and the operands of a
line are, and that a second operand is refused before its value is looked at, is log entry 11. -/
def Obligations.AssemblerRefusesBadLines : Prop :=
  (∀ line : List Char, codeOf line ≠ [] → parseHead (nameOn line) = none →
    assembleLine line = .error .unknownMnemonic) ∧
  (∀ (line : List Char) (m : Mnemonic), m = .nop ∨ m = .init →
    parseHead (nameOn line) = some (.command m) → operandsOn line ≠ [] →
    assembleLine line = .error .unexpectedOperand) ∧
  (∀ (line : List Char) (m : Mnemonic), m = .feed ∨ m = .check →
    parseHead (nameOn line) = some (.command m) →
    (operandsOn line = [] → assembleLine line = .error .missingOperand) ∧
    (2 ≤ (operandsOn line).length → assembleLine line = .error .tooManyOperands) ∧
    ∀ a n, operandsOn line = [a] → parseNumber a = some n → 255 < n →
      assembleLine line = .error .operandOutOfRange) ∧
  (∀ (line : List Char) (ws : List Word), parseHead (nameOn line) ≠ some .word →
    assembleLine line = .ok ws → ∀ w ∈ ws, legalWord w = true) ∧
  (∀ (line : List Char) (a b c d : BitVec 4), parseHead (nameOn line) = some .word →
    operandsOn line = [['0', 'x', hexDigit a, hexDigit b, hexDigit c, hexDigit d]] →
    assembleLine line = .ok [a ++ b ++ c ++ d]) ∧
  ∀ (good : List (List Char)) (bad : List Char) (more : List (List Char)) (p : AsmProblem),
    (∀ l ∈ good, ∃ ws, assembleLine l = .ok ws) → assembleLine bad = .error p →
    assembleFrom 1 (good ++ bad :: more) = .error ⟨good.length + 1, p⟩

/-- R71: the pseudo-instructions stand for these commands, in this order; and INIT alone, which CRCSEQ
with no operand is, leaves `CRC` = 0x00. -/
def Obligations.PseudoInstructionsExpandToTheirCommands : Prop :=
  parseHead "FRAME".toList = some .frame ∧ parseHead "CRCSEQ".toList = some .crcSeq ∧
  parseHead "RESIDUE".toList = some .residue ∧
  (∀ s : State, ∃ t, execAll (crcSeq []) s = .next t ∧ t.regs.crc = 0x00#8) ∧
  ∀ (a b c : List Char) (d0 d1 d2 : Byte), parseByte a = .ok d0 → parseByte b = .ok d1 →
    parseByte c = .ok d2 →
    expand .frame [a, b, c] =
      .ok [encode .init, encode (.feed d0), encode (.feed d1), encode (.check d2)] ∧
    expand .residue [a, b, c] =
      .ok [encode .init, encode (.feed d0), encode (.feed d1), encode (.feed d2),
        encode (.check 0x00#8)] ∧
    expand .crcSeq [] = .ok [encode .init] ∧
    ∀ (ops : List (List Char)) (bs : List Byte), parseBytes ops = .ok bs →
      expand .crcSeq ops = .ok (encode .init :: bs.map (fun d => encode (.feed d)))

/-- R69, R71, and log entry 11 where they leave the form of a line open: a mnemonic is read in any case;
a line is blanks, a name, a gap, operands between commas with blanks around each, blanks, and perhaps a
comment; it stands for what its name says of exactly those operands; and a line with no name emits no
word. -/
def Obligations.LineIsReadAsItsNameAndOperands : Prop :=
  (∀ name : List Char,
    (parseHead name = some (.command .nop) ↔ name.map Char.toUpper = "NOP".toList) ∧
    (parseHead name = some (.command .init) ↔ name.map Char.toUpper = "INIT".toList) ∧
    (parseHead name = some (.command .feed) ↔ name.map Char.toUpper = "FEED".toList) ∧
    (parseHead name = some (.command .check) ↔ name.map Char.toUpper = "CHECK".toList)) ∧
  (∀ (before name gap left right after comment : List Char) (ops : List (List Char)),
    (∀ c ∈ before ++ gap ++ left ++ right ++ after, isBlank c = true) →
    name ≠ [] → (∀ c ∈ name, isBlank c = false ∧ c ≠ ';') → (gap ≠ [] ∨ ops = []) →
    (∀ op ∈ ops, op ≠ [] ∧ ∀ c ∈ op, isBlank c = false ∧ c ≠ ',' ∧ c ≠ ';') →
    (comment = [] ∨ comment.head? = some ';') →
    assembleLine (before ++ name ++ gap ++
        List.intercalate [','] (ops.map (fun op => left ++ op ++ right)) ++ after ++ comment) =
      match parseHead name with
      | none => .error .unknownMnemonic
      | some head => expand head ops) ∧
  ∀ blanks comment : List Char, (∀ c ∈ blanks, isBlank c = true) →
    (comment = [] ∨ comment.head? = some ';') → assembleLine (blanks ++ comment) = .ok []

/-! ### When the host's rows are used up -/

/-- R146: with no row left and no word held an edge changes nothing, and so any number of edges. That
such an edge is one at which the host does nothing is the model's reading (log entry 2). -/
def Obligations.NothingChangesOnceTheRowsAreUsedUp : Prop :=
  ∀ s : State, s.inputs = [] → s.held = none →
    step s = .next s ∧ ∀ k : Nat, Host.Core.run Sys2Proof.core k s = .next s

/-! ### The registers and their history, edge by edge -/

/-- R24, R26 to R30, R82, R101, R105, R106: every step, from every state whose registers are those of
a history, gives the registers of the history with the edge's event added; and the host may use a code
exactly when that history is two bytes fed and a CHECK of their own checksum, and it is their code. -/
def Obligations.EveryStepKeepsTheHistory : Prop :=
  ∀ (h : History) (s t : State), s.regs = h.regs → step s = .next t →
    t.regs = (h.afterEdge (nextRow s)).regs ∧
    ∀ code : Word, usableCode t.regs = some code ↔
      ∃ d0 d1 c, (h.afterEdge (nextRow s)).fed = [d0, d1] ∧
        (h.afterEdge (nextRow s)).checked = some c ∧ validFrame d0 d1 c = true ∧ code = d0 ++ d1

/-- R38: the reset state has the registers of the empty history. -/
def Obligations.ResetHasTheEmptyHistory : Prop :=
  State.reset.regs = History.empty.regs ∧ usableCode State.reset.regs = none
end

