-- ==== Sys2Proof/Laws/Assembler.lean ====
section
/-!
SUPPORT. One spec lemma for each function that reads a line of assembly text: trimming blanks, cutting
a comment off, splitting at commas, and the digits.
-/

namespace Sys2Proof.Machine

/-! ### Blanks -/

theorem dropWhile_isBlank_of_blank {bs : List Char} (h : ∀ c ∈ bs, isBlank c = true)
    (xs : List Char) : (bs ++ xs).dropWhile isBlank = xs.dropWhile isBlank :=
  List.dropWhile_append_of_pos h

theorem trimRight_append_blank {bs : List Char} (h : ∀ c ∈ bs, isBlank c = true) (xs : List Char) :
    trimRight (xs ++ bs) = trimRight xs := by
  unfold trimRight
  rw [List.reverse_append, dropWhile_isBlank_of_blank]
  simpa using h

/-- A character that is no blank keeps all that stands before it. -/
theorem trimRight_append_cons {c : Char} (h : isBlank c = false) (xs ys : List Char) :
    trimRight (xs ++ c :: ys) = xs ++ c :: trimRight ys := by
  have key : ∀ (zs us : List Char), (zs ++ c :: us).dropWhile isBlank =
      zs.dropWhile isBlank ++ c :: us := by
    intro zs us
    induction zs with
    | nil => simp [List.dropWhile, h]
    | cons z zs ih => cases hz : isBlank z <;> simp [List.dropWhile, hz, ih]
  simp [trimRight, key]

/-- A text of no blanks loses nothing, whatever stands after it. -/
theorem trimRight_append_solid {xs : List Char} (h : ∀ c ∈ xs, isBlank c = false)
    (ys : List Char) : trimRight (xs ++ ys) = xs ++ trimRight ys := by
  induction xs with
  | nil => rfl
  | cons x xs ih =>
    rw [List.cons_append, ← List.nil_append (x :: (xs ++ ys)),
      trimRight_append_cons (h x (by simp)), ih (fun c hc => h c (by simp [hc]))]
    rfl

theorem trimRight_blank {bs : List Char} (h : ∀ c ∈ bs, isBlank c = true) : trimRight bs = [] := by
  simpa [trimRight] using trimRight_append_blank h []

/-- What `trimRight` leaves of a text is a start of it. -/
theorem trimRight_prefix (xs : List Char) : trimRight xs <+: xs := by
  unfold trimRight
  simpa using List.reverse_prefix.2 (List.dropWhile_suffix (l := xs.reverse) isBlank)

theorem trimBlanks_blank_append {bs : List Char} (h : ∀ c ∈ bs, isBlank c = true)
    (xs : List Char) : trimBlanks (bs ++ xs) = trimBlanks xs := by
  unfold trimBlanks
  rw [dropWhile_isBlank_of_blank h]

theorem trimBlanks_of_solid_head {x : Char} (h : isBlank x = false) (xs : List Char) :
    trimBlanks (x :: xs) = trimRight (x :: xs) := by
  simp [trimBlanks, List.dropWhile, h]

/-- Blanks around a text of no blanks are all that is trimmed. -/
theorem trimBlanks_padded {l xs r : List Char} (hl : ∀ c ∈ l, isBlank c = true)
    (hx : ∀ c ∈ xs, isBlank c = false) (hr : ∀ c ∈ r, isBlank c = true) :
    trimBlanks (l ++ xs ++ r) = xs := by
  rw [List.append_assoc, trimBlanks_blank_append hl]
  cases xs with
  | nil => rw [← List.append_nil ([] ++ r)]; exact trimBlanks_blank_append (by simpa using hr) []
  | cons x xs =>
    rw [List.cons_append, trimBlanks_of_solid_head (hx x (by simp)), ← List.cons_append,
      trimRight_append_solid hx, trimRight_blank hr, List.append_nil]

/-! ### Comments and names -/

/-- The comment of a line is cut off (R69). -/
theorem takeWhile_before_comment {xs tail : List Char} (hx : ∀ c ∈ xs, c ≠ ';')
    (ht : tail = [] ∨ tail.head? = some ';') : (xs ++ tail).takeWhile (fun c => c != ';') = xs := by
  rw [List.takeWhile_append_of_pos (by simpa using hx)]
  rcases ht with rfl | ht
  · simp
  · cases tail with
    | nil => simp
    | cons t ts => simp at ht; simp [List.takeWhile, ht]

/-! ### Operands -/

theorem splitAtChar_of_none {sep : Char} {xs : List Char} (h : ∀ c ∈ xs, c ≠ sep) :
    splitAtChar sep xs = [xs] := by
  induction xs with
  | nil => rfl
  | cons x xs ih =>
    have hx : (x == sep) = false := by simpa using h x (by simp)
    simp [splitAtChar, hx, ih (fun c hc => h c (by simp [hc]))]

/-- A separator ends the first piece. -/
theorem splitAtChar_append_sep {sep : Char} {xs : List Char} (h : ∀ c ∈ xs, c ≠ sep)
    (ys : List Char) : splitAtChar sep (xs ++ sep :: ys) = xs :: splitAtChar sep ys := by
  induction xs with
  | nil => simp [splitAtChar]
  | cons x xs ih =>
    have hx : (x == sep) = false := by simpa using h x (by simp)
    simp [splitAtChar, hx, ih (fun c hc => h c (by simp [hc]))]

/-! ### Digits -/

/-- A printed digit is read back as its value, and is no blank, no comma and no semicolon. -/
theorem hexDigit_spec : ∀ d : BitVec 4, digitValue 16 (hexDigit d) = some d.toNat ∧
    hexDigit d ≠ ';' ∧ isBlank (hexDigit d) = false ∧ hexDigit d ≠ ',' := by
  decide

end Sys2Proof.Machine
end

