-- ==== Sys2Proof/Laws/Decode.lean ====
section
/-!
SUPPORT. The small facts of the encoding: the fields of a packed word, and a word packed from its
own fields.
-/

namespace Sys2Proof

@[simp] theorem rsvOf_packFields (f : Fields) : rsvOf (packFields f) = f.rsv := by
  show BitVec.extractLsb' 12 4 ((f.rsv ++ f.op) ++ f.data) = f.rsv
  rw [BitVec.extractLsb'_append_eq_of_le (by decide)]
  exact BitVec.extractLsb'_append_eq_left

@[simp] theorem opOf_packFields (f : Fields) : opOf (packFields f) = f.op := by
  show BitVec.extractLsb' 8 4 ((f.rsv ++ f.op) ++ f.data) = f.op
  rw [BitVec.extractLsb'_append_eq_of_le (by decide)]
  exact BitVec.extractLsb'_append_eq_right

@[simp] theorem dataOf_packFields (f : Fields) : dataOf (packFields f) = f.data :=
  BitVec.extractLsb'_append_eq_right

theorem packFields_fieldsOf (w : Word) : packFields (fieldsOf w) = w := by
  show w.extractLsb' 12 4 ++ w.extractLsb' 8 4 ++ w.extractLsb' 0 8 = w
  rw [BitVec.extractLsb'_append_extractLsb'_eq_extractLsb' (by rfl),
    BitVec.extractLsb'_append_extractLsb'_eq_extractLsb' (by rfl)]
  exact BitVec.extractLsb'_eq_self

/-- The fields of a word as numbers. -/
theorem fields_toNat (w : Word) : (rsvOf w).toNat = w.toNat / 4096 ∧
    (opOf w).toNat = w.toNat / 256 % 16 ∧ (dataOf w).toNat = w.toNat % 256 := by
  have := w.isLt
  simp [rsvOf, opOf, dataOf, BitVec.extractLsb'_toNat, Nat.shiftRight_eq_div_pow]
  omega

/-- The mask of NOP and INIT keeps the whole word (R64). -/
theorem and_fullMask (w : Word) : w &&& 0xFFFF#16 = w := by
  rw [show (0xFFFF#16) = BitVec.allOnes 16 by decide, BitVec.and_allOnes]

/-- The command that a word decodes to, as an option and as R66's answer. -/
theorem decodeInstr_eq_some {w : Word} {i : Instr} : decodeInstr w = some i ↔ decode w = .instr i := by
  unfold decodeInstr
  cases decode w <;> simp

theorem decodeInstr_eq_none {w : Word} : decodeInstr w = none ↔ ∃ why, decode w = .illegal w why := by
  unfold decodeInstr
  constructor
  · intro h
    unfold decode at h ⊢
    split_ifs at h ⊢ <;> simp_all
  · rintro ⟨why, h⟩
    rw [h]

end Sys2Proof
end

