-- ==== Sys2Proof/Laws/State.lean ====
section
/-!
SUPPORT. One lemma per field per update of State and Regs, so that no later proof unfolds a record
update.
-/

namespace Sys2Proof.Machine

@[simp] theorem State.setRegs_regs (s : State) (r : Regs) : (s.setRegs r).regs = r := rfl
@[simp] theorem State.setRegs_held (s : State) (r : Regs) : (s.setRegs r).held = s.held := rfl
@[simp] theorem State.setRegs_inputs (s : State) (r : Regs) : (s.setRegs r).inputs = s.inputs := rfl

@[simp] theorem resetBlock_regs (s : State) : (resetBlock s).regs = Regs.reset := rfl
@[simp] theorem resetBlock_held (s : State) : (resetBlock s).held = s.held := rfl
@[simp] theorem resetBlock_inputs (s : State) : (resetBlock s).inputs = s.inputs := rfl

@[simp] theorem Regs.raiseIllegalCommand_crc (r : Regs) : r.raiseIllegalCommand.crc = r.crc := rfl
@[simp] theorem Regs.raiseIllegalCommand_code (r : Regs) : r.raiseIllegalCommand.code = r.code := rfl
@[simp] theorem Regs.raiseIllegalCommand_done (r : Regs) : r.raiseIllegalCommand.done = r.done := rfl
@[simp] theorem Regs.raiseIllegalCommand_matched (r : Regs) :
    r.raiseIllegalCommand.matched = r.matched := rfl
@[simp] theorem Regs.raiseIllegalCommand_valid (r : Regs) : r.raiseIllegalCommand.valid = r.valid := rfl
@[simp] theorem Regs.raiseIllegalCommand_ill (r : Regs) : r.raiseIllegalCommand.ill = true := rfl
@[simp] theorem Regs.raiseIllegalCommand_cnt (r : Regs) : r.raiseIllegalCommand.cnt = r.cnt := rfl

@[simp] theorem raiseIllegalCommand_regs (s : State) :
    (raiseIllegalCommand s).regs = s.regs.raiseIllegalCommand := rfl
@[simp] theorem raiseIllegalCommand_held (s : State) : (raiseIllegalCommand s).held = s.held := rfl
@[simp] theorem raiseIllegalCommand_inputs (s : State) :
    (raiseIllegalCommand s).inputs = s.inputs := rfl

@[simp] theorem Regs.clearVerdict_crc (r : Regs) : r.clearVerdict.crc = r.crc := rfl
@[simp] theorem Regs.clearVerdict_code (r : Regs) : r.clearVerdict.code = r.code := rfl
@[simp] theorem Regs.clearVerdict_done (r : Regs) : r.clearVerdict.done = false := rfl
@[simp] theorem Regs.clearVerdict_matched (r : Regs) : r.clearVerdict.matched = false := rfl
@[simp] theorem Regs.clearVerdict_valid (r : Regs) : r.clearVerdict.valid = false := rfl
@[simp] theorem Regs.clearVerdict_ill (r : Regs) : r.clearVerdict.ill = r.ill := rfl
@[simp] theorem Regs.clearVerdict_cnt (r : Regs) : r.clearVerdict.cnt = r.cnt := rfl

@[simp] theorem Regs.reset_crc : Regs.reset.crc = 0x00#8 := rfl
@[simp] theorem Regs.reset_code : Regs.reset.code = 0x0000#16 := rfl
@[simp] theorem Regs.reset_done : Regs.reset.done = false := rfl
@[simp] theorem Regs.reset_matched : Regs.reset.matched = false := rfl
@[simp] theorem Regs.reset_valid : Regs.reset.valid = false := rfl
@[simp] theorem Regs.reset_ill : Regs.reset.ill = false := rfl
@[simp] theorem Regs.reset_cnt : Regs.reset.cnt = 0 := rfl

end Sys2Proof.Machine
end

