-- ==== Sys2Proof/Laws/Edge.lean ====
section
/-!
SUPPORT. What a command, a word, an event, an edge and a step can do, each said once. Commands,
words and events always answer a next state and never touch the host's side.
-/

namespace Sys2Proof.Machine

/-- The state with the registers `r` and the host's side of `s`. -/
theorem State.eq_setRegs {s t : State} (hh : t.held = s.held) (hi : t.inputs = s.inputs) :
    t = s.setRegs t.regs := by
  cases s; cases t; simp_all [State.setRegs]

/-- Every command answers a next state, by registers that depend on the registers alone. -/
theorem exec_regs (i : Instr) (r : Regs) : ∃ r', ∀ s : State, s.regs = r →
    exec i s = .next (s.setRegs r') := by
  refine ⟨match exec i ⟨r, none, []⟩ with
    | .next t => t.regs
    | .fault _ => r
    | .refused _ => r, fun s h => ?_⟩
  subst h
  cases i <;> rfl

theorem acceptWord_of_instr {w : Word} {i : Instr} (h : decode w = .instr i) (s : State) :
    acceptWord w s = exec i s := by
  simp [acceptWord, h]

theorem acceptWord_of_illegal {w v : Word} {why : IllegalClass} (h : decode w = .illegal v why)
    (s : State) : acceptWord w s = .next (raiseIllegalCommand s) := by
  simp [acceptWord, h]

theorem acceptWord_regs (w : Word) (r : Regs) : ∃ r', ∀ s : State, s.regs = r →
    acceptWord w s = .next (s.setRegs r') := by
  cases h : decode w with
  | instr i => simpa [acceptWord, h] using exec_regs i r
  | illegal v why =>
    exact ⟨r.raiseIllegalCommand, fun s hs => by subst hs; simp [acceptWord, h, raiseIllegalCommand]⟩

/-- Every event answers a next state, by registers that depend on the registers alone. -/
theorem takeEvent_regs (ev : Event) (r : Regs) : ∃ r', ∀ s : State, s.regs = r →
    takeEvent ev s = .next (s.setRegs r') := by
  cases ev with
  | reset => exact ⟨Regs.reset, fun s _ => rfl⟩
  | word w => exact acceptWord_regs w r

theorem runEvents_cons {ev : Event} {evs : List Event} {s t : State}
    (h : takeEvent ev s = .next t) : runEvents (ev :: evs) s = runEvents evs t := by
  simp [runEvents, h]

/-- A run of events answers a next state, by registers that depend on the registers alone. -/
theorem runEvents_regs (evs : List Event) (r : Regs) : ∃ r', ∀ s : State, s.regs = r →
    runEvents evs s = .next (s.setRegs r') := by
  induction evs generalizing r with
  | nil => exact ⟨r, fun s h => by subst h; rfl⟩
  | cons ev evs ih =>
    obtain ⟨r1, h1⟩ := takeEvent_regs ev r
    obtain ⟨r2, h2⟩ := ih r1
    exact ⟨r2, fun s hs => by rw [runEvents_cons (h1 s hs), h2 _ rfl]; rfl⟩

/-- A run of commands answers a next state, by registers that depend on the registers alone. -/
theorem execAll_regs (is : List Instr) (r : Regs) : ∃ r', ∀ s : State, s.regs = r →
    execAll is s = .next (s.setRegs r') := by
  induction is generalizing r with
  | nil => exact ⟨r, fun s h => by subst h; rfl⟩
  | cons i is ih =>
    obtain ⟨r1, h1⟩ := exec_regs i r
    obtain ⟨r2, h2⟩ := ih r1
    exact ⟨r2, fun s hs => by simp [execAll, h1 s hs, h2 (s.setRegs r1) rfl]; rfl⟩

theorem runEvents_append (a b : List Event) (s : State) :
    runEvents (a ++ b) s = match runEvents a s with
      | .next t => runEvents b t
      | .fault f => .fault f
      | .refused r => .refused r := by
  induction a generalizing s with
  | nil => rfl
  | cons ev a ih =>
    simp only [List.cons_append, runEvents]
    cases takeEvent ev s with
    | next t => exact ih t
    | fault f => rfl
    | refused r => rfl

/-! ### Edges -/

theorem brokenHold_eq_some {held : Option Word} {e : EdgeIn} {w : Word} :
    brokenHold held e = some w ↔
      held = some w ∧ e.rst = false ∧ ¬(e.cmdValid = true ∧ e.cmd = w) := by
  cases held with
  | none => simp [brokenHold]
  | some v =>
    simp only [brokenHold]
    split_ifs with h
    · simp at h ⊢
      rintro rfl hr
      simp_all
    · simp at h ⊢
      rintro rfl
      exact h

theorem eventOf_eq_none {e : EdgeIn} : eventOf e = none ↔ e.rst = false ∧ accepts e = false := by
  cases hr : e.rst <;> cases ha : accepts e <;> simp [eventOf, hr, ha]

/-- An edge is a broken hold, one event on the state that holds what the edge leaves held, or
nothing at all. -/
theorem risingEdge_cases (e : EdgeIn) (s : State) :
    (∃ w, brokenHold s.held e = some w ∧ risingEdge e s = .fault (.heldWordChanged w)) ∨
    (brokenHold s.held e = none ∧
      ∃ ev, eventOf e = some ev ∧ risingEdge e s = takeEvent ev { s with held := heldAfter e }) ∨
    (brokenHold s.held e = none ∧ eventOf e = none ∧
      risingEdge e s = .next { s with held := heldAfter e }) := by
  cases hb : brokenHold s.held e with
  | some w => exact .inl ⟨w, rfl, by simp [risingEdge, hb]⟩
  | none =>
    cases he : eventOf e with
    | some ev => exact .inr (.inl ⟨rfl, ev, rfl, by simp [risingEdge, hb, he]⟩)
    | none => exact .inr (.inr ⟨rfl, rfl, by simp [risingEdge, hb, he]⟩)

/-- At an edge that keeps the host's duty the machine answers the events of the edge. -/
theorem risingEdge_of_kept {e : EdgeIn} {s : State} (h : brokenHold s.held e = none) :
    risingEdge e s = runEvents (eventsOf [e]) { s with held := heldAfter e } := by
  cases he : eventOf e with
  | none => simp [risingEdge, h, he, eventsOf, runEvents]
  | some ev =>
    simp only [risingEdge, h, he, eventsOf, List.filterMap_cons, List.filterMap_nil, runEvents]
    cases takeEvent ev { s with held := heldAfter e } <;> rfl

theorem nextRow_nil {s : State} (h : s.inputs = []) : nextRow s = idleRow := by
  simp [nextRow, h]

theorem nextRow_cons {s : State} {e : EdgeIn} {es : List EdgeIn} (h : s.inputs = e :: es) :
    nextRow s = e := by
  simp [nextRow, h]

/-- Every step is an edge with the next row. -/
theorem step_eq (s : State) :
    step s = risingEdge (nextRow s) { s with inputs := s.inputs.tail } := rfl

theorem step_cons {s : State} {e : EdgeIn} {es : List EdgeIn} (h : s.inputs = e :: es) :
    step s = risingEdge e { s with inputs := es } := by
  simp [step_eq, nextRow_cons h, h]

/-- With no row left and no word held nothing changes. -/
theorem step_nil {s : State} (hi : s.inputs = []) (hh : s.held = none) : step s = .next s := by
  obtain ⟨r, _, _⟩ := s
  subst hi hh
  rfl

/-- With no row left a held word is withdrawn. -/
theorem step_nil_held {s : State} {w : Word} (hi : s.inputs = []) (hh : s.held = some w) :
    step s = .fault (.heldWordChanged w) := by
  simp [step_eq, nextRow_nil hi, risingEdge, hh, brokenHold, idleRow]

/-- What a step can do: with the next row's hold broken there is a fault, else the row's event takes
effect, if it has one, and the row is taken off. -/
theorem step_cases (s : State) :
    (∃ w, brokenHold s.held (nextRow s) = some w ∧ step s = .fault (.heldWordChanged w)) ∨
    (brokenHold s.held (nextRow s) = none ∧ ∃ ev, eventOf (nextRow s) = some ev ∧ step s =
      takeEvent ev { s with held := heldAfter (nextRow s), inputs := s.inputs.tail }) ∨
    (brokenHold s.held (nextRow s) = none ∧ eventOf (nextRow s) = none ∧
      step s = .next { s with held := heldAfter (nextRow s), inputs := s.inputs.tail }) :=
  risingEdge_cases (nextRow s) { s with inputs := s.inputs.tail }

/-- One step taken off a run of the host's machine. -/
theorem run_succ_of_step {s t : State} (h : step s = .next t) (k : Nat) :
    Host.Core.run Sys2Proof.core (k + 1) s = Host.Core.run Sys2Proof.core k t := by
  have h' : Sys2Proof.core.step s = .next t := h
  simp only [Host.Core.run, h']

end Sys2Proof.Machine
end

