-- ==== Sys2Proof/Laws/Ops.lean ====
section
/-!
SUPPORT. One spec lemma for each shared operation over registers and flags.
-/

namespace Sys2Proof.Machine

/-- `sat3(CNT + 1)` in numbers (R28). -/
theorem countUp_val (c : Fin 4) : (countUp c).val = min (c.val + 1) 3 := rfl

theorem matchFlag_iff (crc c : Byte) : matchFlag crc c = true ↔ crc = c := by
  simp [matchFlag, equalsCrc]

theorem validFlag_iff (m : Bool) (cnt : Fin 4) :
    validFlag m cnt = true ↔ m = true ∧ cnt = 2 := by
  revert m cnt
  decide

/-- A register and a byte enter the update only through their XOR. -/
theorem crcByte_eq_of_xor (r d : Byte) : crcByte r d = crcByte 0x00#8 (r ^^^ d) := by
  simp [crcByte, xorIntoCrc]

theorem crc8_nil : crc8 [] = 0x00#8 := rfl

/-- R82's second equation: one more byte at the end. -/
theorem crc8_append_one (bs : List Byte) (b : Byte) : crc8 (bs ++ [b]) = crcByte (crc8 bs) b := by
  simp [crc8]

end Sys2Proof.Machine
end

