-- ==== Sys2Proof/Laws/PerInstr.lean ====
section
/-!
SUPPORT. The family WordForm: each command as syntax has an operand in its range, and its word's
fields pass every check of WellFormed.
-/

namespace Sys2Proof.Laws.WordForm

/-- The command is well formed, and so are the fields its word is packed from. -/
def Statement (i : Instr) : Prop :=
  i.wellFormed = true ∧ (fieldsOfInstr i).wellFormed = true

theorem nop : Statement .nop := by simp [Statement, Instr.wellFormed]; decide
theorem init : Statement .init := by simp [Statement, Instr.wellFormed]; decide

theorem feed (d : Byte) : Statement (.feed d) := by
  have h : d.toNat ≤ 255 := by omega
  simp [Statement, Instr.wellFormed, fieldsOfInstr, Fields.wellFormed, Fields.rsvOk, Fields.opOk,
    Fields.dataOk, h]

theorem check (c : Byte) : Statement (.check c) := by
  have h : c.toNat ≤ 255 := by omega
  simp [Statement, Instr.wellFormed, fieldsOfInstr, Fields.wellFormed, Fields.rsvOk, Fields.opOk,
    Fields.dataOk, h]

end Sys2Proof.Laws.WordForm
end

