-- ==== Sys2Proof/Tests/Slice0.lean ====
section
/-!
SUPPORT. The model's own tests, with the expected values of 95_test_vectors.md, and a witness for the
hypotheses of each statement that has some.
-/

namespace Sys2Proof.Tests

open Sys2Proof.Machine

/-- Registers written as 95_test_vectors.md writes them, `CRC` / `CODE` / `STATUS`. -/
def regsOf (crc : Byte) (code : Word) (status : Byte) : Regs :=
  { crc := crc, code := code, done := status.getLsbD 0, matched := status.getLsbD 1,
    valid := status.getLsbD 2, ill := status.getLsbD 3, cnt := (status.extractLsb' 4 2).toFin }

/-- A state with those registers and nothing presented. -/
def stateOf (crc : Byte) (code : Word) (status : Byte) : State :=
  { regs := regsOf crc code status, held := none, inputs := [] }

/-- The same with rows for the coming edges. -/
def stateWith (r : Regs) (rows : List EdgeIn) : State := { regs := r, held := none, inputs := rows }

/-- The outputs after one step, none where the step has no next state. -/
def after (o : Host.Outcome State Fault Refusal) : Option (Byte × Word × Byte) :=
  match o with
  | .next t => some (t.regs.crc, t.regs.code, t.regs.status)
  | .fault _ => none
  | .refused _ => none

/-- The outputs after one step that accepts the word `w`. -/
def afterWord (s : State) (w : Nat) : Option (Byte × Word × Byte) :=
  after (step (s.withFetchWord 16 w))

/-! ### WellFormed: a term that each check refuses -/

theorem test_wellFormed_refuses_reserved_bits :
    (Fields.mk 1#4 0x2#4 0x00#8).rsvOk = false ∧ (Fields.mk 1#4 0x2#4 0x00#8).wellFormed = false := by
  decide

theorem test_wellFormed_refuses_unassigned_op :
    (Fields.mk 0#4 0x4#4 0x00#8).opOk = false ∧ (Fields.mk 0#4 0x4#4 0x00#8).wellFormed = false := by
  decide

theorem test_wellFormed_refuses_data_under_nop_and_init :
    (Fields.mk 0#4 0x0#4 0x01#8).dataOk = false ∧ (Fields.mk 0#4 0x1#4 0x55#8).wellFormed = false := by
  decide

/-! ### Decode vectors -/

theorem test_decode_nop : decode 0b0000_0000_0000_0000#16 = .instr .nop := by decide
theorem test_decode_init : decode 0b0000_0001_0000_0000#16 = .instr .init := by decide
theorem test_decode_feed : decode 0b0000_0010_0101_1010#16 = .instr (.feed 0x5A#8) := by decide
theorem test_decode_check : decode 0b0000_0011_1010_1010#16 = .instr (.check 0xAA#8) := by decide

theorem test_decode_illegal_classes :
    decode 0x00FF#16 = .illegal 0x00FF#16 .unexpectedData ∧
      decode 0x0101#16 = .illegal 0x0101#16 .unexpectedData ∧
      decode 0x0400#16 = .illegal 0x0400#16 .unassignedOp ∧
      decode 0x0FFF#16 = .illegal 0x0FFF#16 .unassignedOp ∧
      decode 0x1200#16 = .illegal 0x1200#16 .reservedBits ∧
      decode 0x8300#16 = .illegal 0x8300#16 .reservedBits := by decide

theorem test_decodeTableWord :
    decodeTableWord 16 0x02FF = some (.feed 0xFF#8) ∧ decodeTableWord 16 0x0001 = none := by decide

/-! ### One step per command (Per-family vectors) -/

theorem test_nop_keeps_a_verdict :
    afterWord (stateOf 0xAA#8 0x665A#16 0x2F#8) 0x0000 = some (0xAA#8, 0x665A#16, 0x2F#8) := by decide

theorem test_init_keeps_ill :
    afterWord (stateOf 0xAA#8 0x665A#16 0x2F#8) 0x0100 = some (0x00#8, 0x0000#16, 0x08#8) := by decide
theorem test_init_clears_a_saturated_count :
    afterWord (stateOf 0x00#8 0xB0EC#16 0x33#8) 0x0100 = some (0x00#8, 0x0000#16, 0x00#8) := by decide

theorem test_feed_second_byte :
    afterWord (stateOf 0x1D#8 0x0066#16 0x18#8) 0x025A = some (0xAA#8, 0x665A#16, 0x28#8) := by decide
theorem test_feed_saturates_and_clears_the_verdict :
    afterWord (stateOf 0x00#8 0xB0EC#16 0x33#8) 0x0201 = some (0x31#8, 0xEC01#16, 0x30#8) := by decide

theorem test_check_valid_with_ill :
    afterWord (stateOf 0xAA#8 0x665A#16 0x28#8) 0x03AA = some (0xAA#8, 0x665A#16, 0x2F#8) := by decide
theorem test_check_length_mismatch :
    afterWord (stateOf 0x1D#8 0x0066#16 0x10#8) 0x031D = some (0x1D#8, 0x0066#16, 0x13#8) := by decide

theorem test_illegal_word_does_not_initialise :
    afterWord (stateOf 0xAA#8 0x665A#16 0x27#8) 0x0155 = some (0xAA#8, 0x665A#16, 0x2F#8) := by decide
theorem test_illegal_word_feeds_nothing :
    afterWord (stateOf 0xAA#8 0x665A#16 0x27#8) 0xF2AA = some (0xAA#8, 0x665A#16, 0x2F#8) := by decide

/-! ### Reset, ports and power (Reset vectors, Cycle-level vector) -/

theorem test_reset_wins_over_a_word :
    after (step (stateWith (regsOf 0x00#8 0xB0EC#16 0x33#8) [⟨true, true, 0x02FF#16, false⟩])) =
      some (0x00#8, 0x0000#16, 0x00#8) := by decide

theorem test_cycle_vector :
    (cycleTrace [acceptedRow 0x0100#16, acceptedRow 0x0266#16, acceptedRow 0x025A#16,
        acceptedRow 0x03AA#16, ⟨false, false, 0x0000#16, false⟩] State.reset).map
      (fun c => (c.cmdReady, c.outputs.crcOut, c.outputs.codeOut, c.outputs.statusOut)) =
    [(true, 0x00#8, 0x0000#16, 0x00#8), (true, 0x00#8, 0x0000#16, 0x00#8),
      (true, 0x1D#8, 0x0066#16, 0x10#8), (true, 0xAA#8, 0x665A#16, 0x20#8),
      (true, 0xAA#8, 0x665A#16, 0x27#8)] := by decide

theorem test_used_up_rows_withdraw_a_held_word :
    step { stateOf 0xAA#8 0x665A#16 0x20#8 with held := some 0x0200#16 } =
      .fault (.heldWordChanged 0x0200#16) := rfl

theorem test_power_on_reset : chipEdge resetRow .unspecified = .next (.live State.reset) := rfl

/-! ### Checksum vectors -/

theorem test_bit_steps : crcBit 0x80#8 = 0x31#8 ∧ crcBit 0xFF#8 = 0xCF#8 ∧ crcBit 0x7F#8 = 0xFE#8 := by
  decide

theorem test_checksum_of_digits :
    crc8 [0x31#8, 0x32#8, 0x33#8, 0x34#8, 0x35#8, 0x36#8, 0x37#8, 0x38#8, 0x39#8] = 0xA2#8 := by
  decide +kernel

/-! ### The assembly language (R69 to R72) -/

theorem test_assemble_program :
    assemble "init ; start\nFEED 0x66\n\nfeed 90\n.word 0x0400\nCHECK 0b10101010".toList =
      .ok [0x0100#16, 0x0266#16, 0x025A#16, 0x0400#16, 0x03AA#16] := by decide +kernel

theorem test_assemble_names_the_line :
    assemble "NOP\nFEED 256".toList = .error ⟨2, .operandOutOfRange⟩ ∧
      assemble "FRAME 0x5C, 0xB0, 0xEC".toList =
        .ok [0x0100#16, 0x025C#16, 0x02B0#16, 0x03EC#16] := by decide +kernel

theorem test_disassemble :
    disassemble 0x025A#16 = "FEED 0x5A".toList ∧
      disassemble 0x0400#16 = ".word 0x0400 ; illegal".toList := by decide +kernel

/-! ### Witnesses: states and operands that meet the hypotheses of each statement, clause by clause -/

/-- A row that presents the word `w` to a block that stalls. -/
def stalledRow (w : Word) : EdgeIn := { rst := false, cmdValid := true, cmd := w, stall := true }

/-- A row at which the host presents nothing. -/
def quietRow : EdgeIn := { rst := false, cmdValid := false, cmd := 0xFFFF#16, stall := false }

/-- A state that holds the word `w`. -/
def holding (w : Word) (rows : List EdgeIn) : State :=
  { regs := regsOf 0xAA#8 0x665A#16 0x20#8, held := some w, inputs := rows }

theorem witness_ResetStateHoldsTheResetValues : State.reset.regs.ill = false := by decide

theorem witness_ResetEdgeGivesEveryRegisterItsResetValue :
    (holding 0x0200#16 [resetRow]).inputs = [resetRow] ∧ resetRow.rst = true := by decide

theorem witness_OneEventTakesEffectAtAnEdge :
    brokenHold none resetRow = none ∧ resetRow.rst = true ∧
      brokenHold none (acceptedRow 0x0200#16) = none ∧ cmdReady (acceptedRow 0x0200#16) = true ∧
      brokenHold none quietRow = none ∧ ¬(quietRow.cmdValid = true ∧ cmdReady quietRow = true) ∧
      State.reset.regs.crc ≠ 0x01#8 := by decide

theorem witness_StepRunsTheDecodedCommand :
    (stateWith Regs.reset [acceptedRow 0x0266#16]).inputs = acceptedRow 0x0266#16 :: [] ∧
      brokenHold none (acceptedRow 0x0266#16) = none ∧ (acceptedRow 0x0266#16).cmdValid = true ∧
      decode (acceptedRow 0x0266#16).cmd = .instr (.feed 0x66#8) := by decide

theorem witness_HostMustHoldThePresentedWord :
    ((holding 0x0200#16 []).inputs = [] ∧ (holding 0x0200#16 []).held = some 0x0200#16) ∧
    ((holding 0x0200#16 [quietRow]).held = some 0x0200#16 ∧ quietRow.rst = false ∧
      ¬(quietRow.cmdValid = true ∧ quietRow.cmd = 0x0200#16)) ∧
    ((stateWith Regs.reset [quietRow]).held = none ∧ accepts quietRow = false) ∧
    ((holding 0x0200#16 [resetRow]).held ≠ none ∧ resetRow.rst = true ∧ accepts resetRow = false) ∧
    (brokenHold (some 0x0200#16) (stalledRow 0x0200#16) = none ∧
      cmdReady (stalledRow 0x0200#16) = false) := by decide

theorem witness_PresentedWordIsAcceptedAfterTheReset :
    (holding 0x0300#16 [⟨true, true, 0x0200#16, false⟩, ⟨false, true, 0x0200#16, false⟩]).inputs =
        [⟨true, true, 0x0200#16, false⟩, ⟨false, true, 0x0200#16, false⟩] ∧
      (holding 0x0300#16 [⟨true, true, 0x0200#16, true⟩, ⟨false, true, 0x0200#16, true⟩]).inputs =
        [⟨true, true, 0x0200#16, true⟩, ⟨false, true, 0x0200#16, true⟩] := by decide

theorem witness_ReadyIsLowForAtMostBusyCycles :
    resetRow.rst = true ∧
    (stallsWithin 1 ([quietRow] ++ [stalledRow 0x0200#16] ++ [acceptedRow 0x0200#16]) = true ∧
      ∀ e ∈ [stalledRow 0x0200#16], e.rst = false ∧ cmdReady e = false) ∧
    (stallsWithin Config.referenceBusy [quietRow] = true ∧ quietRow.rst = false) := by decide

theorem witness_HeldWordIsAcceptedWithinTheBusyBound :
    [stalledRow 0x0200#16, acceptedRow 0x0200#16].length = 1 + 1 ∧
      (∀ e ∈ [stalledRow 0x0200#16, acceptedRow 0x0200#16],
        e.rst = false ∧ e.cmdValid = true ∧ e.cmd = 0x0200#16) ∧
      stallsWithin 1 [stalledRow 0x0200#16, acceptedRow 0x0200#16] = true ∧
      (stateWith Regs.reset [stalledRow 0x0200#16, acceptedRow 0x0200#16]).held = none ∧
      (holding 0x0200#16 [stalledRow 0x0200#16, acceptedRow 0x0200#16]).held = some 0x0200#16 := by
  decide

theorem witness_EdgesApplyTheAcceptedWordsInOrder :
    keepsDuty none [stalledRow 0x0266#16, acceptedRow 0x0266#16, quietRow, resetRow] = true := by decide

theorem witness_StallsNeverChangeWhatWordsDo :
    keepsDuty none [stalledRow 0x0266#16, acceptedRow 0x0266#16] = true ∧
      keepsDuty none [quietRow, acceptedRow 0x0266#16] = true ∧
      eventsOf [stalledRow 0x0266#16, acceptedRow 0x0266#16] =
        eventsOf [quietRow, acceptedRow 0x0266#16] := by decide

theorem witness_OutputsShowExactlyTheEarlierEdges :
    keepsDuty none [stalledRow 0x0266#16, acceptedRow 0x0266#16] = true := by decide

theorem witness_PowerOnHasNoStateBeforeTheFirstReset :
    resetRow.rst = true ∧ (acceptedRow 0x0000#16).rst = false ∧
      (acceptedRow 0x0000#16).cmdValid = true ∧ quietRow.rst = false ∧ quietRow.cmdValid = false := by
  decide

theorem witness_LegalWordIsTheEncodingOfItsCommand :
    decode 0x02FF#16 = .instr (.feed 0xFF#8) := by decide

theorem witness_DecoderFollowsTheMatchAndMaskRows :
    (⟨.check, 0x0300#16, 0xFF00#16⟩ : Row) ∈ rows ∧
      (⟨.check, 0x0300#16, 0xFF00#16⟩ : Row).selects 0x03FF#16 = true := by decide

theorem witness_IllegalWordsFallIntoTheThreeClasses :
    legalWord 0x0101#16 = false ∧ legalWord 0x0400#16 = false ∧ legalWord 0x1000#16 = false := by decide

/-- The first two clauses of the statements about NOP, INIT, FEED and CHECK. -/
theorem witness_wordsOfTheCommands :
    0x0000#16 &&& 0xFFFF#16 = 0x0000#16 ∧ 0x0100#16 &&& 0xFFFF#16 = 0x0100#16 ∧
      0x02FF#16 &&& 0xFF00#16 = 0x0200#16 ∧ 0x03FF#16 &&& 0xFF00#16 = 0x0300#16 ∧
      (0x01#8 : Byte) ≠ 0#8 := by decide

theorem witness_IllegalWordOnlySetsIll :
    (regsOf 0xAA#8 0x665A#16 0x2F#8).ill = true ∧
      brokenHold none (acceptedRow 0x0400#16) = none ∧ accepts (acceptedRow 0x0400#16) = true ∧
      ∀ r ∈ rows, (acceptedRow 0x0400#16).cmd &&& r.mask ≠ r.pattern := by decide

theorem witness_CheckSpellsOneOfThreeVerdicts :
    (regsOf 0xAA#8 0x665A#16 0x20#8).crc ≠ 0xAB#8 ∧
      ((regsOf 0x1D#8 0x0066#16 0x10#8).crc = 0x1D#8 ∧ (regsOf 0x1D#8 0x0066#16 0x10#8).cnt ≠ 2) ∧
      ((regsOf 0xAA#8 0x665A#16 0x20#8).crc = 0xAA#8 ∧ (regsOf 0xAA#8 0x665A#16 0x20#8).cnt = 2) := by
  decide

theorem witness_LaterCheckReplacesTheVerdict :
    ∀ ev ∈ [Event.word 0x0000#16, Event.word 0x0400#16],
      ∃ w, ev = .word w ∧ (decode w = .instr .nop ∨ legalWord w = false) := by
  intro ev h
  simp only [List.mem_cons, List.not_mem_nil, or_false] at h
  rcases h with rfl | rfl
  · exact ⟨_, rfl, by decide⟩
  · exact ⟨_, rfl, by decide⟩

theorem witness_InitAndResetDifferInIllOnly :
    ∀ w ∈ [0x0266#16, 0x03AA#16], legalWord w = true := by
  intro w h
  simp only [List.mem_cons, List.not_mem_nil, or_false] at h
  rcases h with rfl | rfl <;> decide

theorem witness_EveryStepKeepsTheStatusInvariants :
    (regsOf 0xAA#8 0x665A#16 0x27#8).Inv ∧
      ∃ t, step (stateWith (regsOf 0xAA#8 0x665A#16 0x27#8) [acceptedRow 0x0266#16]) = .next t :=
  ⟨by decide, _, rfl⟩

theorem witness_IllRisesOnIllegalWordsAndFallsOnReset :
    ((regsOf 0xAA#8 0x665A#16 0x27#8).ill = false ∧
      ∃ t, step (stateWith (regsOf 0xAA#8 0x665A#16 0x27#8) [acceptedRow 0x0400#16]) = .next t) ∧
    ((regsOf 0xAA#8 0x665A#16 0x2F#8).ill = true ∧
      ∃ t, step (stateWith (regsOf 0xAA#8 0x665A#16 0x2F#8) [resetRow]) = .next t) :=
  ⟨⟨by decide, _, rfl⟩, by decide, _, rfl⟩

theorem witness_RegistersChangeOnlyByTheCommandsThatWriteThem :
    (nextRow (stateWith Regs.reset [acceptedRow 0x0266#16])).rst = false ∧
      (∃ t, step (stateWith Regs.reset [acceptedRow 0x0266#16]) = .next t ∧
        t.regs.crc ≠ Regs.reset.crc) ∧
      (nextRow State.reset).rst = false ∧ ∃ t, step State.reset = .next t :=
  ⟨rfl, ⟨_, rfl, by decide⟩, rfl, _, rfl⟩

theorem witness_RegistersChangeOnlyByTheCommandsThatWriteThem_check :
    (∃ t, step (stateWith Regs.reset [acceptedRow 0x0300#16]) = .next t ∧
      t.regs.done ≠ Regs.reset.done) ∧ ∃ c, decode 0x0300#16 = .instr (.check c) :=
  ⟨⟨_, rfl, by decide⟩, _, rfl⟩

theorem witness_ChecksumIsLinear : [0x66#8, 0x5A#8].length = [0x00#8, 0x01#8].length := rfl

theorem witness_SmallAndOddErrorsAreDetected :
    validFrame 0x66#8 0x5A#8 0xAA#8 = true ∧ ¬(0x66#8 = 0#8 ∧ 0x5A#8 = 0#8 ∧ 0xAA#8 = 0#8) ∧
      frameWeight 0x00#8 0x80#8 0x03#8 = 3 ∧ frameWeight 0x1F#8 0x00#8 0x00#8 % 2 = 1 := by
  decide +kernel

theorem witness_CodeHoldsTheLastTwoBytesFed :
    State.reset = resetBlock State.reset ∧ exec .init State.reset = .next State.reset := ⟨rfl, rfl⟩

theorem witness_RegistersAlwaysMatchTheHistory :
    (stateOf 0xAA#8 0x665A#16 0x27#8).regs =
      (⟨[0x66#8, 0x5A#8], some 0xAA#8, false⟩ : History).regs := by decide +kernel

theorem witness_ValidMeansAValidFrameWasChecked :
    ∃ t, Host.Core.run Sys2Proof.core 4 (stateWith Regs.reset
        [acceptedRow 0x0100#16, acceptedRow 0x0266#16, acceptedRow 0x025A#16,
          acceptedRow 0x03AA#16]) = .next t ∧ t.regs.valid = true :=
  ⟨_, rfl, by decide +kernel⟩

theorem witness_AssemblingADisassemblyGivesTheWord : legalWord 0x0400#16 = false := by decide

theorem witness_AssemblerRefusesBadLines :
    (codeOf " LOAD 1 ; x".toList ≠ [] ∧ parseHead (nameOn " LOAD 1 ; x".toList) = none) ∧
      (parseHead (nameOn "nop 1".toList) = some (.command .nop) ∧ operandsOn "nop 1".toList ≠ []) ∧
      (parseHead (nameOn "FEED".toList) = some (.command .feed) ∧ operandsOn "FEED".toList = []) ∧
      (parseHead (nameOn "CHECK 1, 300".toList) = some (.command .check) ∧
        (operandsOn "CHECK 1, 300".toList).length = 2) ∧
      (operandsOn "FEED 256".toList = ["256".toList] ∧ parseNumber "256".toList = some 256) := by
  decide +kernel

theorem witness_AssemblerRefusesBadLines_texts :
    (parseHead (nameOn "FRAME 1, 2, 3".toList) ≠ some .word ∧
        assembleLine "FRAME 1, 2, 3".toList = .ok [0x0100#16, 0x0201#16, 0x0202#16, 0x0303#16]) ∧
      (parseHead (nameOn ".word 0x0400".toList) = some .word ∧
        operandsOn ".word 0x0400".toList =
          [['0', 'x', hexDigit 0x0#4, hexDigit 0x4#4, hexDigit 0x0#4, hexDigit 0x0#4]]) ∧
      assembleLine "NOP".toList = .ok [0x0000#16] ∧
      assembleLine "NOP 1".toList = .error .unexpectedOperand := by decide +kernel

theorem witness_LineIsReadAsItsNameAndOperands :
    (∀ c ∈ " ".toList ++ "  ".toList ++ " ".toList ++ [] ++ "\t".toList, isBlank c = true) ∧
      (∀ c ∈ "FRAME".toList, isBlank c = false ∧ c ≠ ';') ∧ "  ".toList ≠ [] ∧
      (∀ op ∈ ["1".toList, "0x2".toList], op ≠ [] ∧
        ∀ c ∈ op, isBlank c = false ∧ c ≠ ',' ∧ c ≠ ';') ∧
      "; two".toList.head? = some ';' := by
  simp [isBlank]

theorem witness_NothingChangesOnceTheRowsAreUsedUp :
    (stateOf 0xAA#8 0x665A#16 0x27#8).inputs = [] ∧ (stateOf 0xAA#8 0x665A#16 0x27#8).held = none :=
  ⟨rfl, rfl⟩

theorem witness_EveryStepKeepsTheHistory :
    (stateOf 0xAA#8 0x665A#16 0x20#8).regs = (⟨[0x66#8, 0x5A#8], none, false⟩ : History).regs ∧
      ∃ t, step (stateWith (regsOf 0xAA#8 0x665A#16 0x20#8) [acceptedRow 0x03AA#16]) = .next t ∧
        usableCode t.regs = some 0x665A#16 :=
  ⟨by decide +kernel, _, rfl, by decide +kernel⟩

theorem witness_PseudoInstructionsExpandToTheirCommands :
    parseByte "0x5C".toList = .ok 0x5C#8 ∧ parseByte "176".toList = .ok 0xB0#8 ∧
      parseByte "0b11101100".toList = .ok 0xEC#8 ∧
      parseBytes ["0x31".toList, "0x32".toList] = .ok [0x31#8, 0x32#8] := by decide +kernel

end Sys2Proof.Tests
end

section
/-!
The statements about the state. The meanings of the model are first said once as functions on the
registers (`Regs.afterInstr` to `Regs.afterEdge`), each tied to the model by an equation; the
statements about steps, runs and histories are then statements about these functions.
-/

namespace Sys2Proof

/-! ### Legal words, by their fields and by the decoder -/

theorem packFields_inj {f g : Fields} : packFields f = packFields g ↔ f = g := by
  refine ⟨fun h => ?_, congrArg _⟩
  have hrsv := congrArg rsvOf h
  have hop := congrArg opOf h
  have hdata := congrArg dataOf h
  simp only [rsvOf_packFields, opOf_packFields, dataOf_packFields] at hrsv hop hdata
  cases f; cases g
  simp_all

/-- A whole word is the packing of the fields `f` exactly when its own fields are `f`. -/
theorem eq_packFields_iff {w : Word} {f : Fields} : w = packFields f ↔ fieldsOf w = f := by
  conv_lhs => rw [← packFields_fieldsOf w]
  exact packFields_inj

/-- The mask of FEED and CHECK keeps `RSV` and `OP` and clears `DATA` (R64). -/
theorem and_upperMask (w : Word) : w &&& 0xFF00#16 = packFields ⟨rsvOf w, opOf w, 0x00#8⟩ := by
  conv_lhs => rw [← packFields_fieldsOf w]
  show (rsvOf w ++ opOf w ++ dataOf w) &&& (BitVec.allOnes 4 ++ BitVec.allOnes 4 ++ 0x00#8) =
    rsvOf w ++ opOf w ++ 0x00#8
  rw [BitVec.and_append, BitVec.and_append, BitVec.and_allOnes, BitVec.and_allOnes,
    BitVec.and_zero]

/-- A row with the full mask selects the one word of its fields. -/
theorem selects_fullMask {m : Mnemonic} {f : Fields} {w : Word} :
    (Row.mk m (packFields f) 0xFFFF#16).selects w = true ↔ fieldsOf w = f := by
  simp only [Row.selects, and_fullMask, beq_iff_eq, eq_packFields_iff]

/-- A row with the mask 0xFF00 selects by `RSV` and `OP`. -/
theorem selects_upperMask {m : Mnemonic} {a b : BitVec 4} {w : Word} :
    (Row.mk m (packFields ⟨a, b, 0x00#8⟩) 0xFF00#16).selects w = true ↔
      rsvOf w = a ∧ opOf w = b := by
  simp [Row.selects, and_upperMask, packFields_inj]

/-- R64's rows, with their patterns as packed fields. -/
theorem rows_eq : rows =
    [⟨.nop, packFields ⟨0#4, 0x0#4, 0x00#8⟩, 0xFFFF#16⟩,
      ⟨.init, packFields ⟨0#4, 0x1#4, 0x00#8⟩, 0xFFFF#16⟩,
      ⟨.feed, packFields ⟨0#4, 0x2#4, 0x00#8⟩, 0xFF00#16⟩,
      ⟨.check, packFields ⟨0#4, 0x3#4, 0x00#8⟩, 0xFF00#16⟩] := by decide

/-- The fields of the legal words (R64). -/
theorem legalWord_iff_fields (w : Word) : legalWord w = true ↔
    fieldsOf w = ⟨0#4, 0x0#4, 0x00#8⟩ ∨ fieldsOf w = ⟨0#4, 0x1#4, 0x00#8⟩ ∨
      (rsvOf w = 0#4 ∧ opOf w = 0x2#4) ∨ (rsvOf w = 0#4 ∧ opOf w = 0x3#4) := by
  simp only [legalWord, rows_eq, List.any_cons, List.any_nil, Bool.or_eq_true, selects_fullMask,
    selects_upperMask, Bool.false_eq_true, or_false]

/-- A word is legal exactly when the decoder answers a command (R65, R66). -/
theorem legalWord_iff_decode (w : Word) : legalWord w = true ↔ ∃ i, decode w = .instr i := by
  rw [legalWord_iff_fields, fieldsOf]
  unfold decode
  split_ifs <;> simp_all

theorem legalWord_of_instr {w : Word} {i : Instr} (h : decode w = .instr i) :
    legalWord w = true :=
  (legalWord_iff_decode w).2 ⟨i, h⟩

theorem legalWord_of_illegal {w v : Word} {why : IllegalClass} (h : decode w = .illegal v why) :
    legalWord w = false := by
  rw [← Bool.not_eq_true, legalWord_iff_decode, h]
  simp

end Sys2Proof

namespace Sys2Proof.Machine

/-! ### What a command, a word, an event and an edge make of the registers -/

/-- The registers after a command (R92, R100, R120, R121). -/
def Regs.afterInstr (r : Regs) (i : Instr) : Regs :=
  match i with
  | .nop => r
  | .init => { r.clearVerdict with crc := Config.crcInit, code := 0x0000#16, cnt := 0 }
  | .feed d =>
    { r.clearVerdict with
      crc := crcByte r.crc d
      code := shiftIntoCode r.code d
      cnt := countUp r.cnt }
  | .check c =>
    { r with
      matched := matchFlag r.crc c
      valid := validFlag (matchFlag r.crc c) r.cnt
      done := true }

/-- The registers after an accepted word (R42, R123). -/
def Regs.afterWord (r : Regs) (w : Word) : Regs :=
  match decode w with
  | .instr i => r.afterInstr i
  | .illegal _ _ => r.raiseIllegalCommand

/-- The registers after an event (R146). -/
def Regs.afterEvent (r : Regs) (ev : Event) : Regs :=
  match ev with
  | .reset => Regs.reset
  | .word w => r.afterWord w

/-- The registers after an edge at which the host keeps its duty (R146). -/
def Regs.afterEdge (r : Regs) (e : EdgeIn) : Regs := (eventOf e).elim r r.afterEvent

theorem exec_eq (i : Instr) (s : State) :
    exec i s = .next (s.setRegs (s.regs.afterInstr i)) := by
  cases i <;> rfl

theorem Regs.afterWord_of_instr {w : Word} {i : Instr} (h : decode w = .instr i) (r : Regs) :
    r.afterWord w = r.afterInstr i := by
  simp [Regs.afterWord, h]

theorem Regs.afterWord_of_illegal {w v : Word} {why : IllegalClass}
    (h : decode w = .illegal v why) (r : Regs) : r.afterWord w = r.raiseIllegalCommand := by
  simp [Regs.afterWord, h]

theorem acceptWord_eq (w : Word) (s : State) :
    acceptWord w s = .next (s.setRegs (s.regs.afterWord w)) := by
  cases h : decode w with
  | instr i => rw [acceptWord_of_instr h, exec_eq, Regs.afterWord_of_instr h]
  | illegal v why => rw [acceptWord_of_illegal h, Regs.afterWord_of_illegal h]; rfl

theorem takeEvent_eq (ev : Event) (s : State) :
    takeEvent ev s = .next (s.setRegs (s.regs.afterEvent ev)) := by
  cases ev with
  | reset => rfl
  | word w => exact acceptWord_eq w s

theorem execAll_eq (is : List Instr) (s : State) :
    execAll is s = .next (s.setRegs (is.foldl Regs.afterInstr s.regs)) := by
  induction is generalizing s with
  | nil => rfl
  | cons i is ih => simp only [execAll, exec_eq, ih]; rfl

theorem runEvents_eq (evs : List Event) (s : State) :
    runEvents evs s = .next (s.setRegs (evs.foldl Regs.afterEvent s.regs)) := by
  induction evs generalizing s with
  | nil => rfl
  | cons ev evs ih => rw [runEvents_cons (takeEvent_eq ev s), ih]; rfl

/-! ### Edges, steps and runs of edges -/

theorem rst_of_accepts {e : EdgeIn} (h : accepts e = true) : e.rst = false := by
  simp only [accepts, Bool.and_eq_true, Bool.not_eq_true'] at h
  obtain ⟨⟨hr, -⟩, -⟩ := h
  exact hr

theorem Regs.afterEdge_of_rst {e : EdgeIn} (h : e.rst = true) (r : Regs) :
    r.afterEdge e = Regs.reset := by
  simp [Regs.afterEdge, eventOf, h, Regs.afterEvent]

theorem Regs.afterEdge_of_accepts {e : EdgeIn} (h : accepts e = true) (r : Regs) :
    r.afterEdge e = r.afterWord e.cmd := by
  simp [Regs.afterEdge, eventOf, rst_of_accepts h, h, Regs.afterEvent]

theorem Regs.afterEdge_of_quiet {e : EdgeIn} (hr : e.rst = false) (ha : accepts e = false)
    (r : Regs) : r.afterEdge e = r := by
  simp [Regs.afterEdge, eventOf, hr, ha]

theorem risingEdge_eq {e : EdgeIn} {s : State} (h : brokenHold s.held e = none) :
    risingEdge e s = .next { s with regs := s.regs.afterEdge e, held := heldAfter e } := by
  rw [risingEdge_of_kept h, runEvents_eq]
  cases he : eventOf e <;> simp [eventsOf, he, Regs.afterEdge, State.setRegs]

theorem step_eq_of_kept {s : State} (h : brokenHold s.held (nextRow s) = none) :
    step s = .next { regs := s.regs.afterEdge (nextRow s), held := heldAfter (nextRow s),
                     inputs := s.inputs.tail } := by
  rw [step_eq]
  exact risingEdge_eq h

/-- A step has a next state only where the hold is kept, and then the next row decides it. -/
theorem eq_of_step_eq_next {s t : State} (h : step s = .next t) :
    t = { regs := s.regs.afterEdge (nextRow s), held := heldAfter (nextRow s),
          inputs := s.inputs.tail } := by
  cases hb : brokenHold s.held (nextRow s) with
  | none => rw [step_eq_of_kept hb] at h; injection h with h; exact h.symm
  | some w => simp [step_eq, risingEdge, hb] at h

theorem step_regs {s t : State} (h : step s = .next t) :
    t.regs = s.regs.afterEdge (nextRow s) := by
  rw [eq_of_step_eq_next h]

/-- A run that answers a next state has taken a first step. -/
theorem exists_step_of_run_succ {s t : State} {k : Nat}
    (h : Host.Core.run Sys2Proof.core (k + 1) s = .next t) :
    ∃ u, step s = .next u ∧ Host.Core.run Sys2Proof.core k u = .next t := by
  rcases step_cases s with ⟨w, -, hs⟩ | ⟨hb, -⟩ | ⟨hb, -⟩
  · have hf : Sys2Proof.core.step s = .fault (.heldWordChanged w) := hs
    simp [Host.Core.run, hf] at h
  all_goals
    have hs := step_eq_of_kept hb
    exact ⟨_, hs, run_succ_of_step hs k ▸ h⟩

theorem foldl_afterEvent_eventsOf (es : List EdgeIn) (r : Regs) :
    (eventsOf es).foldl Regs.afterEvent r = es.foldl Regs.afterEdge r := by
  rw [eventsOf, List.foldl_filterMap]
  congr 1
  funext r e
  cases he : eventOf e <;> simp [Regs.afterEdge, he]

/-- Over edges at which the host keeps its duty, the machine applies them one by one. -/
theorem run_of_keepsDuty {s : State} {es rest : List EdgeIn} (hi : s.inputs = es ++ rest)
    (hd : keepsDuty s.held es = true) :
    Host.Core.run Sys2Proof.core es.length s =
      .next { regs := es.foldl Regs.afterEdge s.regs, held := heldAfterRows s.held es,
              inputs := rest } := by
  induction es generalizing s with
  | nil => obtain ⟨r, h, i⟩ := s; cases hi; rfl
  | cons e es ih =>
    have hn : nextRow s = e := nextRow_cons hi
    obtain ⟨hb, hds⟩ : brokenHold s.held e = none ∧ keepsDuty (heldAfter e) es = true := by
      simpa [keepsDuty] using hd
    have hs := step_eq_of_kept (hn.symm ▸ hb)
    rw [List.length_cons, run_succ_of_step hs, hn, ih (by simp [hi]) hds]
    rfl

/-- Where a run of edges answers a next state, the edges were applied one by one. -/
theorem run_regs {s t : State} {es rest : List EdgeIn} (hi : s.inputs = es ++ rest)
    (h : Host.Core.run Sys2Proof.core es.length s = .next t) :
    t.regs = es.foldl Regs.afterEdge s.regs := by
  induction es generalizing s with
  | nil => cases h; rfl
  | cons e es ih =>
    obtain ⟨u, hs, hu⟩ := exists_step_of_run_succ h
    obtain rfl := eq_of_step_eq_next hs
    rw [ih (by simp [hi]) hu, nextRow_cons hi]
    rfl

/-! ### `ILL` and the frame of each command -/

@[simp] theorem Regs.afterInstr_ill (r : Regs) (i : Instr) : (r.afterInstr i).ill = r.ill := by
  cases i <;> rfl

/-- No accepted word clears `ILL`, and an illegal one sets it (R30, R123). -/
theorem Regs.afterWord_ill (r : Regs) (w : Word) :
    (r.afterWord w).ill = (r.ill || !legalWord w) := by
  cases h : decode w with
  | instr i => simp [Regs.afterWord_of_instr h, legalWord_of_instr h]
  | illegal v why => simp [Regs.afterWord_of_illegal h, legalWord_of_illegal h]

theorem Regs.foldl_afterWord_ill (ws : List Word) (r : Regs) :
    (ws.foldl Regs.afterWord r).ill = (r.ill || ws.any (fun w => !legalWord w)) := by
  induction ws generalizing r with
  | nil => simp
  | cons w ws ih => simp [ih, Regs.afterWord_ill, Bool.or_assoc]

theorem Regs.afterEdge_ill (r : Regs) (e : EdgeIn) :
    (r.afterEdge e).ill = (!e.rst && (r.ill || accepts e && !legalWord e.cmd)) := by
  cases hr : e.rst with
  | true => simp [Regs.afterEdge_of_rst hr]
  | false =>
    cases ha : accepts e with
    | true => simp [Regs.afterEdge_of_accepts ha, Regs.afterWord_ill]
    | false => simp [Regs.afterEdge_of_quiet hr ha]

/-- Only INIT and FEED write `CRC`, `CODE` and `CNT` (R21, R23, R28). -/
theorem Regs.afterWord_data (r : Regs) (w : Word) :
    (decode w = .instr .init ∨ ∃ d, decode w = .instr (.feed d)) ∨
      (r.afterWord w).crc = r.crc ∧ (r.afterWord w).code = r.code ∧
        (r.afterWord w).cnt = r.cnt := by
  cases h : decode w with
  | illegal v why => simp [Regs.afterWord_of_illegal h]
  | instr i =>
    rw [Regs.afterWord_of_instr h]
    cases i with
    | nop | check c => exact .inr ⟨rfl, rfl, rfl⟩
    | init => exact .inl (.inl rfl)
    | feed d => exact .inl (.inr ⟨d, rfl⟩)

/-- Only INIT, FEED and CHECK write `DONE`, `MATCH` and `VALID` (R26, R27, R29). -/
theorem Regs.afterWord_verdict (r : Regs) (w : Word) :
    (decode w = .instr .init ∨ (∃ d, decode w = .instr (.feed d)) ∨
      ∃ c, decode w = .instr (.check c)) ∨
      (r.afterWord w).done = r.done ∧ (r.afterWord w).matched = r.matched ∧
        (r.afterWord w).valid = r.valid := by
  cases h : decode w with
  | illegal v why => simp [Regs.afterWord_of_illegal h]
  | instr i =>
    rw [Regs.afterWord_of_instr h]
    cases i with
    | nop => exact .inr ⟨rfl, rfl, rfl⟩
    | init => exact .inl (.inl rfl)
    | feed d => exact .inl (.inr (.inl ⟨d, rfl⟩))
    | check c => exact .inl (.inr (.inr ⟨c, rfl⟩))

/-- With `rst` = 0 an edge leaves the registers alone or accepts its word. -/
theorem Regs.afterEdge_of_no_rst {e : EdgeIn} (hr : e.rst = false) (r : Regs) :
    (accepts e = true ∧ r.afterEdge e = r.afterWord e.cmd) ∨ r.afterEdge e = r := by
  cases ha : accepts e with
  | true => exact .inl ⟨rfl, Regs.afterEdge_of_accepts ha r⟩
  | false => exact .inr (Regs.afterEdge_of_quiet hr ha r)

/-- For a property that an idle row lacks: the next row has it exactly when a row is left and the
first one has it. -/
theorem exists_row_iff_nextRow {p : EdgeIn → Prop} (hp : ¬ p idleRow) (s : State) :
    (∃ e rest, s.inputs = e :: rest ∧ p e) ↔ p (nextRow s) := by
  cases hi : s.inputs with
  | nil => simp [nextRow_nil hi, hp]
  | cons e es => simp [nextRow_cons hi]

/-! ### The invariants of `STATUS` -/

theorem Regs.inv_reset : Regs.reset.Inv := by decide

theorem Regs.inv_afterInstr {r : Regs} (h : r.Inv) (i : Instr) : (r.afterInstr i).Inv := by
  cases i with
  | nop => exact h
  | init | feed d => simp [Regs.Inv, Regs.afterInstr]
  | check c => simp [Regs.Inv, Regs.afterInstr, validFlag_iff]

theorem Regs.inv_afterWord {r : Regs} (h : r.Inv) (w : Word) : (r.afterWord w).Inv := by
  cases hd : decode w with
  | instr i => rw [Regs.afterWord_of_instr hd]; exact Regs.inv_afterInstr h i
  | illegal v why => rw [Regs.afterWord_of_illegal hd]; exact h

theorem Regs.inv_afterEdge {r : Regs} (h : r.Inv) (e : EdgeIn) : (r.afterEdge e).Inv := by
  cases hr : e.rst with
  | true => rw [Regs.afterEdge_of_rst hr]; exact Regs.inv_reset
  | false =>
    rcases Regs.afterEdge_of_no_rst hr r with ⟨-, he⟩ | he <;> rw [he]
    · exact Regs.inv_afterWord h e.cmd
    · exact h

/-- The flags of registers that meet the invariants spell a verdict (R32, R102). -/
theorem Regs.verdict_ne_none {r : Regs} (h : r.Inv) : r.verdict ≠ none := by
  obtain ⟨hv, hm⟩ := h
  cases hvalid : r.valid with
  | true =>
    obtain ⟨hmatched, hdone, -⟩ := hv hvalid
    simp [Regs.verdict, hvalid, hmatched, hdone]
  | false =>
    cases hmatched : r.matched with
    | true => simp [Regs.verdict, hvalid, hmatched, hm hmatched]
    | false => cases hdone : r.done <;> simp [Regs.verdict, hvalid, hmatched, hdone]

/-! ### The `STATUS` byte -/

/-- `STATUS` with the widths of its six parts written out, so that the library's lemmas about `++`
apply to it (R25). -/
theorem Regs.status_eq (r : Regs) : r.status =
    (0b00#2 ++ (BitVec.ofFin r.cnt : BitVec 2) ++ BitVec.ofBool r.ill ++ BitVec.ofBool r.valid ++
      BitVec.ofBool r.matched ++ BitVec.ofBool r.done : BitVec (2 + 2 + 1 + 1 + 1 + 1)) := rfl

theorem Regs.status_flags (r : Regs) : r.status.getLsbD 0 = r.done ∧
    r.status.getLsbD 1 = r.matched ∧ r.status.getLsbD 2 = r.valid ∧
    r.status.getLsbD 3 = r.ill := by
  rw [Regs.status_eq]
  simp only [BitVec.getLsbD_append]
  simp

theorem Regs.status_cnt (r : Regs) : (r.status.extractLsb' 4 2).toNat = r.cnt.val := by
  rw [Regs.status_eq]
  iterate 4 rw [BitVec.extractLsb'_append_eq_of_le (by decide)]
  exact congrArg BitVec.toNat BitVec.extractLsb'_append_eq_right

/-- STATUS[7:6] is hardwired to 0 (R31). -/
theorem Regs.status_unused (r : Regs) : r.status.extractLsb' 6 2 = 0#2 := by
  rw [Regs.status_eq]
  iterate 4 rw [BitVec.extractLsb'_append_eq_of_le (by decide)]
  exact BitVec.extractLsb'_append_eq_left

/-- R38: all three outputs are zero on the reset registers. -/
theorem outputsOf_reset : outputsOf Regs.reset = ⟨0x00#8, 0x0000#16, 0x00#8⟩ := by decide

/-! ### Histories -/

/-- The number of bytes fed, as `CNT` shows it (R28). -/
theorem History.regs_cnt_val (h : History) : h.regs.cnt.val = min h.fed.length 3 := by
  simp only [History.regs]
  split_ifs <;> simp <;> omega

/-- The low byte of `CODE` becomes its high byte (R23). -/
theorem shiftIntoCode_append (x y z : Byte) : shiftIntoCode (x ++ y) z = y ++ z :=
  congrArg (· ++ z) BitVec.extractLsb'_append_eq_right

/-- One more byte fed moves the last two (R23, R24). -/
theorem lastTwo_append_one (bs : List Byte) (d : Byte) :
    lastTwo (bs ++ [d]) = shiftIntoCode (lastTwo bs) d := by
  simp only [lastTwo, List.reverse_append, List.reverse_singleton, List.singleton_append]
  rcases bs.reverse with _ | ⟨d1, _ | ⟨d0, ds⟩⟩
  · rfl
  · exact (shiftIntoCode_append _ d1 d).symm
  · exact (shiftIntoCode_append d0 d1 d).symm

theorem History.regs_cnt_eq_two (h : History) : h.regs.cnt = 2 ↔ h.fed.length = 2 := by
  rw [← Fin.val_inj, History.regs_cnt_val, Fin.val_two]
  omega

/-- One more byte fed is counted up to 3 (R28). -/
theorem History.countUp_regs_cnt {h h' : History} (hl : h'.fed.length = h.fed.length + 1) :
    countUp h.regs.cnt = h'.regs.cnt := by
  rw [← Fin.val_inj, countUp_val, History.regs_cnt_val, History.regs_cnt_val, hl]
  omega

/-- `VALID` as a history spells it (R29, R101). -/
theorem History.regs_valid_iff (h : History) : h.regs.valid = true ↔
    h.checked = some (crc8 h.fed) ∧ h.fed.length = 2 := by
  simp [History.regs]

/-- FEED on the registers of a history gives those of the history with the byte added. -/
theorem History.regs_feed (h : History) (d : Byte) :
    (History.mk (h.fed ++ [d]) none h.illegalSeen).regs = h.regs.afterInstr (.feed d) := by
  simp only [Regs.afterInstr, History.countUp_regs_cnt
    (h := h) (h' := ⟨h.fed ++ [d], none, h.illegalSeen⟩) (by simp)]
  simp [History.regs, crc8_append_one, lastTwo_append_one, Regs.clearVerdict]

/-- CHECK on the registers of a history gives those of the history with that byte checked. -/
theorem History.regs_check (h : History) (c : Byte) :
    History.regs { h with checked := some c } = h.regs.afterInstr (.check c) := by
  have hm : matchFlag (crc8 h.fed) c = (some c == some (crc8 h.fed)) := by
    rw [Bool.eq_iff_iff, matchFlag_iff, beq_iff_eq, Option.some_inj, eq_comm]
  have hv : ∀ m, validFlag m h.regs.cnt = (m && h.fed.length == 2) := fun m => by
    rw [Bool.eq_iff_iff, validFlag_iff, History.regs_cnt_eq_two]
    simp
  simp only [Regs.afterInstr, hv]
  simp only [History.regs, hm, Option.isSome_some]

theorem History.regs_add_word (h : History) (w : Word) :
    (h.add (.word w)).regs = h.regs.afterWord w := by
  cases hd : decode w with
  | illegal v why => rw [Regs.afterWord_of_illegal hd]; simp only [History.add, hd]; rfl
  | instr i =>
    rw [Regs.afterWord_of_instr hd]
    cases i with
    | nop | init => simp only [History.add, hd]; rfl
    | feed d => simp only [History.add, hd]; exact h.regs_feed d
    | check c => simp only [History.add, hd]; exact h.regs_check c

/-- The registers of a history follow its events one by one. -/
theorem History.regs_add (h : History) (ev : Event) :
    (h.add ev).regs = h.regs.afterEvent ev := by
  cases ev with
  | reset => rfl
  | word w => exact h.regs_add_word w

theorem History.regs_foldl_add (h : History) (evs : List Event) :
    (evs.foldl History.add h).regs = evs.foldl Regs.afterEvent h.regs :=
  (List.foldl_hom History.regs fun h ev => (h.regs_add ev).symm).symm

theorem History.regs_afterEdge (h : History) (e : EdgeIn) :
    (h.afterEdge e).regs = h.regs.afterEdge e := by
  unfold History.afterEdge Regs.afterEdge
  cases eventOf e with
  | none => rfl
  | some ev => exact h.regs_add ev

theorem History.regs_code_of_two {h : History} {d0 d1 : Byte} (hf : h.fed = [d0, d1]) :
    h.regs.code = d0 ++ d1 :=
  congrArg lastTwo hf

theorem usableCode_eq_some {r : Regs} {code : Word} :
    usableCode r = some code ↔ r.valid = true ∧ r.code = code := by
  cases hv : r.valid <;> simp [usableCode, hv]

/-- The host may use the code of exactly two bytes fed and checked against their checksum (R101,
R105). -/
theorem History.usableCode_regs_iff (h : History) (code : Word) :
    usableCode h.regs = some code ↔ ∃ d0 d1 c, h.fed = [d0, d1] ∧ h.checked = some c ∧
      validFrame d0 d1 c = true ∧ code = d0 ++ d1 := by
  rw [usableCode_eq_some, History.regs_valid_iff]
  constructor
  · rintro ⟨⟨hc, hl⟩, rfl⟩
    obtain ⟨d0, d1, hf⟩ := List.length_eq_two.1 hl
    exact ⟨d0, d1, _, hf, hc, by simp [validFrame, hf], regs_code_of_two hf⟩
  · rintro ⟨d0, d1, c, hf, hc, hv, rfl⟩
    have hcrc : crc8 [d0, d1] = c := by simpa [validFrame] using hv
    exact ⟨⟨by rw [hf, hcrc, hc], by rw [hf]; rfl⟩, regs_code_of_two hf⟩

/-! ### `CODE` over a run of FEEDs -/

theorem Regs.foldl_feed_code (bs : List Byte) (r : Regs) :
    ((bs.map Instr.feed).foldl Regs.afterInstr r).code = bs.foldl shiftIntoCode r.code := by
  induction bs generalizing r with
  | nil => rfl
  | cons b bs ih => exact ih _

theorem shiftIntoCode_twice (code : Word) (x y : Byte) :
    shiftIntoCode (shiftIntoCode code x) y = x ++ y :=
  shiftIntoCode_append _ x y

theorem code_toNat (d0 d1 : Byte) : (d0 ++ d1 : Word).toNat = d0.toNat * 256 + d1.toNat := by
  rw [show (d0 ++ d1 : Word).toNat = d0.toNat <<< 8 ||| d1.toNat from BitVec.toNat_append d0 d1,
    ← Nat.shiftLeft_add_eq_or_of_lt d1.isLt, Nat.shiftLeft_eq]

theorem codeBytes_append (d0 d1 : Byte) : codeBytes (d0 ++ d1) = (d0, d1) :=
  Prod.ext BitVec.extractLsb'_append_eq_left BitVec.extractLsb'_append_eq_right

/-! ### Tier 3 -/

/-- Settles O11: a run over rows that keep the duty applies their events to the registers, whatever
else the rows hold. -/
theorem stallsNeverChangeWhatWordsDo : Obligations.StallsNeverChangeWhatWordsDo := by
  intro s s' es es' rest rest' hregs hi hi' hd hd' hev
  refine ⟨_, _, run_of_keepsDuty hi hd, run_of_keepsDuty hi' hd', ?_⟩
  show es.foldl Regs.afterEdge s.regs = es'.foldl Regs.afterEdge s'.regs
  rw [← foldl_afterEvent_eventsOf, ← foldl_afterEvent_eventsOf, hregs, hev]

/-- Settles O29: the invariants are kept at each kind of edge. -/
theorem everyStepKeepsTheStatusInvariants : Obligations.EveryStepKeepsTheStatusInvariants := by
  intro s t hinv hstep
  have ht : t.regs.Inv := step_regs hstep ▸ Regs.inv_afterEdge hinv (nextRow s)
  exact ⟨ht, t.regs.status_unused, Regs.verdict_ne_none ht⟩

/-- Settles O49: `History.regs` turns the events of a history into those of the registers. -/
theorem registersAlwaysMatchTheHistory : Obligations.RegistersAlwaysMatchTheHistory := by
  intro h s evs hs
  exact ⟨_, runEvents_eq evs s, by rw [State.setRegs_regs, hs, History.regs_foldl_add]⟩

/-- Settles O56: the one-edge case, with the reading of `VALID` in the history's terms. -/
theorem everyStepKeepsTheHistory : Obligations.EveryStepKeepsTheHistory := by
  intro h s t hs hstep
  have ht : t.regs = (h.afterEdge (nextRow s)).regs := by
    rw [step_regs hstep, hs, History.regs_afterEdge]
  exact ⟨ht, fun code => ht ▸ History.usableCode_regs_iff _ code⟩

/-! ### Tier 2 -/

/-- Settles O28, from the layout of `STATUS`. -/
theorem statusByteHoldsTheFieldsInPlace : Obligations.StatusByteHoldsTheFieldsInPlace := by
  intro r
  obtain ⟨hdone, hmatched, hvalid, hill⟩ := r.status_flags
  exact ⟨hdone, hmatched, hvalid, hill, r.status_cnt, r.status_unused⟩

/-- Settles O31, from the value of `ILL` after an edge. -/
theorem illRisesOnIllegalWordsAndFallsOnReset :
    Obligations.IllRisesOnIllegalWordsAndFallsOnReset := by
  intro s t hstep
  have ht : t.regs.ill = _ := step_regs hstep ▸ Regs.afterEdge_ill s.regs (nextRow s)
  refine ⟨fun hill => ?_, fun hill => ?_⟩
  · rw [exists_row_iff_nextRow (p := fun e => accepts e = true ∧ legalWord e.cmd = false)
      (by decide), ht, hill]
    simpa using fun ha _ => rst_of_accepts ha
  · rw [exists_row_iff_nextRow (p := fun e => e.rst = true) (by decide), ht, hill]
    simp

/-- Settles O32: with `rst` = 0 only an accepted word changes a register, and each word's frame says
which. -/
theorem registersChangeOnlyByTheCommandsThatWriteThem :
    Obligations.RegistersChangeOnlyByTheCommandsThatWriteThem := by
  rintro s t e rfl hr hstep
  rw [step_regs hstep]
  rcases Regs.afterEdge_of_no_rst hr s.regs with ⟨ha, he⟩ | he <;> rw [he]
  · refine ⟨fun hne => ⟨ha, ?_⟩, fun hne => ⟨ha, ?_⟩, ?_⟩
    · rcases s.regs.afterWord_data (nextRow s).cmd with hd | ⟨hcrc, hcode, hcnt⟩
      · exact hd
      · simp [hcrc, hcode, hcnt] at hne
    · rcases s.regs.afterWord_verdict (nextRow s).cmd with hd | ⟨hdone, hmatched, hvalid⟩
      · exact hd
      · simp [hdone, hmatched, hvalid] at hne
    · rintro ⟨c, hc⟩
      rw [Regs.afterWord_of_instr hc]
      exact ⟨rfl, rfl, rfl, rfl⟩
  · simp

/-- Settles O34: after the reset `ILL` collects the illegal words. -/
theorem runEndsGoodExactlyWithoutIllegalWords :
    Obligations.RunEndsGoodExactlyWithoutIllegalWords := by
  intro s ws
  refine ⟨_, runEvents_eq _ s, ?_⟩
  have hill : ((Event.reset :: ws.map .word).foldl Regs.afterEvent s.regs).ill =
      ws.any (fun w => !legalWord w) := by
    rw [List.foldl_cons, List.foldl_map]
    exact Regs.foldl_afterWord_ill ws Regs.reset
  simp only [State.goodFinal, State.setRegs_regs, hill]
  simp

/-- Settles O48: FEED moves `CODE` left by a byte, and INIT and reset leave it 0. -/
theorem codeHoldsTheLastTwoBytesFed : Obligations.CodeHoldsTheLastTwoBytesFed := by
  intro s start hstart
  have hcode : start.regs.code = 0x0000#16 := by
    rcases hstart with rfl | h
    · rfl
    · rw [exec_eq] at h; cases h; rfl
  have hrun (bs : List Byte) : ∃ t, execAll (bs.map .feed) start = .next t ∧
      t.regs.code = bs.foldl shiftIntoCode 0x0000#16 :=
    ⟨_, execAll_eq _ start, by rw [State.setRegs_regs, Regs.foldl_feed_code, hcode]⟩
  refine ⟨fun d0 => hrun [d0], fun d0 d1 => ?_, fun bs x y => ?_⟩
  · obtain ⟨t, ht, hc⟩ := hrun [d0, d1]
    have hc : t.regs.code = d0 ++ d1 := hc.trans (shiftIntoCode_twice _ d0 d1)
    exact ⟨t, ht, hc, hc ▸ code_toNat d0 d1, hc ▸ codeBytes_append d0 d1⟩
  · obtain ⟨t, ht, hc⟩ := hrun (bs ++ [x, y])
    refine ⟨t, ht, ?_⟩
    rw [hc, List.foldl_append]
    exact shiftIntoCode_twice _ x y

/-- Settles O50: the registers reached are those of the events' history, and its code is usable. -/
theorem validMeansAValidFrameWasChecked : Obligations.ValidMeansAValidFrameWasChecked := by
  intro es rest s t hs hi hrun hvalid
  have ht : t.regs = ((eventsOf es).foldl History.add History.empty).regs := by
    rw [run_regs hi hrun, History.regs_foldl_add, foldl_afterEvent_eventsOf, hs]
    rfl
  have husable : usableCode t.regs = some t.regs.code := usableCode_eq_some.2 ⟨hvalid, rfl⟩
  obtain ⟨d0, d1, c, hfed, hchecked, hframe, hcode⟩ :=
    (History.usableCode_regs_iff _ _).1 (ht ▸ husable)
  exact ⟨d0, d1, c, hfed, hchecked, hframe, husable.trans (congrArg some (ht ▸ hcode))⟩

/-! ### Tier 1 -/

/-- Settles O1: every value stands in `Regs.reset`, and INIT differs from it in `ILL` alone. -/
theorem resetStateHoldsTheResetValues : Obligations.ResetStateHoldsTheResetValues := by
  refine ⟨rfl, rfl, rfl, rfl, rfl, rfl, rfl, congrArg Outputs.statusOut outputsOf_reset,
    fun s hill => ⟨_, exec_eq .init s, ?_⟩⟩
  simp [Regs.afterInstr, Regs.clearVerdict, State.reset, Regs.reset, hill]

/-- Settles O14: the layer over power-on, and the reset edge of a live block. -/
theorem powerOnHasNoStateBeforeTheFirstReset :
    Obligations.PowerOnHasNoStateBeforeTheFirstReset := by
  refine ⟨fun e hr => ?_, fun e hr hv => ?_, fun e hr hv => ?_, rfl, fun e s hr => ?_,
    fun _ => rfl, fun _ => rfl⟩
  · simp [chipEdge, hr]
  · simp [chipEdge, hr, hv]
  · simp [chipEdge, hr, hv]
  · have hkept : brokenHold s.held e = none := by
      cases hh : s.held <;> simp [brokenHold, hr]
    refine ⟨_, by rw [chipEdge, risingEdge_eq hkept], Regs.afterEdge_of_rst hr s.regs, ?_⟩
    rw [Chip.read, Regs.afterEdge_of_rst hr]
    exact congrArg Host.Outcome.next outputsOf_reset

/-- Settles O30. -/
theorem resetMeetsTheStatusInvariants : Obligations.ResetMeetsTheStatusInvariants :=
  ⟨Regs.inv_reset, Regs.reset.status_unused⟩

/-- Settles O57. -/
theorem resetHasTheEmptyHistory : Obligations.ResetHasTheEmptyHistory := ⟨rfl, rfl⟩

end Sys2Proof.Machine
end

section
/-!
The statements about the command port, the edges and what the outputs show, and the order in which a
byte's bits enter the register. `Regs.afterEdge` and `run_of_keepsDuty` of the state's proofs say
what an edge and a run of edges do; this part adds the broken hold, the row with another word, the stall
count and the serial form of the byte update.
-/

namespace Sys2Proof.Machine

/-! ### The host's duty and the accepting edge -/

/-- No hold can be broken with no word held, nor under reset (R43, R172). -/
theorem brokenHold_eq_none_of_free {held : Option Word} {e : EdgeIn}
    (h : held = none ∨ e.rst = true) : brokenHold held e = none := by
  rcases h with rfl | hr
  · rfl
  · cases held <;> simp [brokenHold, hr]

/-- A broken hold has no step (R43, X6). -/
theorem step_of_brokenHold {s : State} {w : Word} (h : brokenHold s.held (nextRow s) = some w) :
    step s = .fault (.heldWordChanged w) := by
  simp [step_eq, risingEdge, h]

theorem accepts_eq_true_iff {e : EdgeIn} :
    accepts e = true ↔ e.rst = false ∧ e.cmdValid = true ∧ e.stall = false := by
  cases hr : e.rst <;> simp [accepts, cmdReady, hr]

/-- An accepted word is held no longer (R42). -/
theorem heldAfter_of_accepts {e : EdgeIn} (h : accepts e = true) : heldAfter e = none := by
  obtain ⟨hr, -, hstall⟩ := accepts_eq_true_iff.1 h
  simp [heldAfter, cmdReady, hr, hstall]

/-- A word presented and not accepted is held (R43). -/
theorem heldAfter_of_not_ready {e : EdgeIn} (hr : e.rst = false) (hv : e.cmdValid = true)
    (hready : cmdReady e = false) : heldAfter e = some e.cmd := by
  simp [heldAfter, hr, hv, hready]

theorem accepts_of_not_ready {e : EdgeIn} (hready : cmdReady e = false) : accepts e = false := by
  simp [accepts, hready]

theorem accepts_cmd (e : EdgeIn) (w : Word) : accepts { e with cmd := w } = accepts e := rfl

/-- An edge that accepts no word does not look at `cmd` (R43, X5). -/
theorem Regs.afterEdge_cmd {e : EdgeIn} (ha : accepts e = false) (w : Word) (r : Regs) :
    r.afterEdge { e with cmd := w } = r.afterEdge e := by
  have hev : eventOf { e with cmd := w } = eventOf e := by simp [eventOf, accepts_cmd, ha]
  rw [Regs.afterEdge, hev, Regs.afterEdge]

/-- A step over a given row that keeps the hold. -/
theorem step_cons_of_kept {s : State} {e : EdgeIn} {rest : List EdgeIn} (hi : s.inputs = e :: rest)
    (h : brokenHold s.held e = none) :
    step s = .next { regs := s.regs.afterEdge e, held := heldAfter e, inputs := rest } := by
  rw [step_cons hi]
  exact risingEdge_eq h

/-! ### Outputs cycle by cycle -/

theorem cycleTrace_cons_of_kept {e : EdgeIn} {s : State} (h : brokenHold s.held e = none)
    (es : List EdgeIn) :
    cycleTrace (e :: es) s = { cmdReady := cmdReady e, outputs := outputsOf s.regs } ::
      cycleTrace es { s with regs := s.regs.afterEdge e, held := heldAfter e } := by
  simp only [cycleTrace, risingEdge_eq h]

/-- The cycle after the rows `pre` shows the registers that those rows left (R53, R177). -/
theorem cycleTrace_getElem?_length (pre post : List EdgeIn) (e : EdgeIn) (s : State)
    (hd : keepsDuty s.held pre = true) :
    (cycleTrace (pre ++ e :: post) s)[pre.length]? =
      some { cmdReady := cmdReady e, outputs := outputsOf (pre.foldl Regs.afterEdge s.regs) } := by
  induction pre generalizing s with
  | nil => rfl
  | cons p pre ih =>
    obtain ⟨hb, hds⟩ : brokenHold s.held p = none ∧ keepsDuty (heldAfter p) pre = true := by
      simpa [keepsDuty] using hd
    rw [List.cons_append, cycleTrace_cons_of_kept hb, List.length_cons, List.getElem?_cons_succ]
    exact ih _ hds

/-! ### The bound on stalls -/

theorem cmdReady_eq_true_iff {e : EdgeIn} (hr : e.rst = false) :
    cmdReady e = true ↔ e.stall = false := by
  simp [cmdReady, hr]

theorem stallsWithinFrom_cons_stalled {e : EdgeIn} (h : e.rst = false ∧ cmdReady e = false)
    (p n : Nat) (es : List EdgeIn) : stallsWithinFrom p n (e :: es) = true ↔
      n + 1 ≤ p ∧ stallsWithinFrom p (n + 1) es = true := by
  simp [stallsWithinFrom, h]

theorem stallsWithinFrom_cons_other {e : EdgeIn} (h : ¬(e.rst = false ∧ cmdReady e = false))
    (p n : Nat) (es : List EdgeIn) :
    stallsWithinFrom p n (e :: es) = stallsWithinFrom p 0 es := by
  rw [stallsWithinFrom, if_neg (by simpa using h)]

/-- Rows within the bound leave a stall count within it for the rows after them. -/
theorem exists_stallsWithinFrom_of_append {p n : Nat} (pre es : List EdgeIn) (hn : n ≤ p)
    (h : stallsWithinFrom p n (pre ++ es) = true) : ∃ m ≤ p, stallsWithinFrom p m es = true := by
  induction pre generalizing n with
  | nil => exact ⟨n, hn, h⟩
  | cons e pre ih =>
    by_cases he : e.rst = false ∧ cmdReady e = false
    · obtain ⟨hn', h'⟩ := (stallsWithinFrom_cons_stalled he p n _).1 h
      exact ih hn' h'
    · exact ih (Nat.zero_le p) (stallsWithinFrom_cons_other he p n _ ▸ h)

/-- A run of stalled cycles adds its length to the stall count, which stays within the bound. -/
theorem add_length_le_of_stalled {p n : Nat} (run post : List EdgeIn) (hn : n ≤ p)
    (h : stallsWithinFrom p n (run ++ post) = true)
    (hrun : ∀ e ∈ run, e.rst = false ∧ cmdReady e = false) : n + run.length ≤ p := by
  induction run generalizing n with
  | nil => exact hn
  | cons e run ih =>
    obtain ⟨he, hrun⟩ := List.forall_mem_cons.1 hrun
    obtain ⟨hn', h'⟩ := (stallsWithinFrom_cons_stalled he p n _).1 h
    have := ih hn' h' hrun
    rw [List.length_cons]
    omega

/-- R178's bound: no run of stalled cycles is longer than `pBusy`. -/
theorem length_le_of_stallsWithin {pBusy : Nat} {pre run post : List EdgeIn}
    (h : stallsWithin pBusy (pre ++ run ++ post) = true)
    (hrun : ∀ e ∈ run, e.rst = false ∧ cmdReady e = false) : run.length ≤ pBusy := by
  rw [stallsWithin, List.append_assoc] at h
  obtain ⟨m, hm, h'⟩ := exists_stallsWithinFrom_of_append pre (run ++ post) (Nat.zero_le _) h
  have := add_length_le_of_stalled run post hm h' hrun
  omega

/-! ### The serial form of the byte update -/

/-- The bit step without its ninth bit (R80). -/
theorem crcBit_eq (r : Byte) :
    crcBit r = (r <<< 1) ^^^ (if r.getLsbD 7 = true then 0x31#8 else 0x00#8) := by
  have hshift : ((r.setWidth 9) <<< 1).extractLsb' 0 8 = r <<< 1 := by
    rw [← BitVec.setWidth_eq_extractLsb' (by decide), BitVec.setWidth_shiftLeft_of_le (by decide),
      BitVec.setWidth_setWidth_of_le r (by decide), BitVec.setWidth_eq]
  have hpoly : Config.poly.extractLsb' 0 8 = 0x31#8 := by decide
  simp only [crcBit]
  split
  · rw [BitVec.extractLsb'_xor, hshift, hpoly]
  · rw [hshift, BitVec.xor_zero]

/-- One serial step: the bit `k` of `d` enters at the top of the register (R45). -/
def serialStep (d x : Byte) (k : Nat) : Byte :=
  (x <<< 1) ^^^ (if (x.getLsbD 7 ^^ d.getLsbD k) = true then 0x31#8 else 0x00#8)

/-- With the bits of `d` not yet consumed still XORed in at the top, a bit step is a serial step. -/
theorem crcBit_xor_shiftLeft (x d : Byte) {n : Nat} (hn : n ≤ 7) :
    crcBit (x ^^^ d <<< n) = serialStep d x (7 - n) ^^^ d <<< (n + 1) := by
  have htop : (x ^^^ d <<< n).getLsbD 7 = (x.getLsbD 7 ^^ d.getLsbD (7 - n)) := by
    rw [BitVec.getLsbD_xor, BitVec.getLsbD_shiftLeft]
    simp [Nat.not_lt.2 hn]
  rw [crcBit_eq, htop, serialStep, BitVec.shiftLeft_xor_distrib, ← BitVec.shiftLeft_add,
    BitVec.xor_assoc, BitVec.xor_assoc, BitVec.xor_comm (d <<< (n + 1))]

/-- After `n` bit steps the serial form has consumed the bits 7 down to 8 - `n`. -/
theorem iterate_crcBit_xor (r d : Byte) {n : Nat} (hn : n ≤ 8) :
    crcBit^[n] (r ^^^ d) =
      ((List.range n).map (7 - ·)).foldl (serialStep d) r ^^^ d <<< n := by
  induction n with
  | zero => simp
  | succ n ih =>
    rw [Function.iterate_succ_apply', ih (by omega), crcBit_xor_shiftLeft _ _ (by omega),
      List.range_succ, List.map_append, List.foldl_append]
    rfl

/-! ### Tier 3 -/

/-- Settles O10: both sides fold `Regs.afterEdge` over the rows. -/
theorem edgesApplyTheAcceptedWordsInOrder : Obligations.EdgesApplyTheAcceptedWordsInOrder := by
  intro s es rest hi hd
  refine ⟨_, runEvents_eq _ s, ?_⟩
  rw [run_of_keepsDuty hi hd, State.setRegs_regs, foldl_afterEvent_eventsOf]

/-! ### Tier 2 -/

/-- Settles O5: a broken hold has no step, and a kept one leaves the registers to `afterEdge`. -/
theorem hostMustHoldThePresentedWord : Obligations.HostMustHoldThePresentedWord := by
  refine ⟨fun s w => step_nil_held, fun s e rest hi => ⟨?_, ?_, ?_⟩⟩
  · intro w hw hr hne
    exact step_of_brokenHold (nextRow_cons hi ▸ brokenHold_eq_some.2 ⟨hw, hr, hne⟩)
  · intro hfree ha w
    exact ⟨_, _, step_cons_of_kept hi (brokenHold_eq_none_of_free hfree),
      step_cons_of_kept rfl (brokenHold_eq_none_of_free hfree),
      (Regs.afterEdge_cmd ha w s.regs).symm⟩
  · intro hb hr hv hready
    exact ⟨_, step_cons_of_kept hi hb, heldAfter_of_not_ready hr hv hready,
      Regs.afterEdge_of_quiet hr (accepts_of_not_ready hready) s.regs⟩

/-- Settles O8: with the bound 0 a stalled cycle would be a run that is too long. -/
theorem readyIsLowForAtMostBusyCycles : Obligations.ReadyIsLowForAtMostBusyCycles := by
  refine ⟨fun e => ⟨fun hr => by simp [cmdReady, hr], cmdReady_eq_true_iff, fun w => rfl⟩,
    fun _ _ _ _ => length_le_of_stallsWithin, fun es h e he hr => ?_⟩
  obtain ⟨pre, post, rfl⟩ := List.append_of_mem he
  by_contra hready
  have hlen : [e].length ≤ Config.referenceBusy :=
    length_le_of_stallsWithin (pre := pre) (post := post) (by simpa using h)
      (by simpa [hr] using hready)
  exact Nat.not_succ_le_zero 0 hlen

/-- Settles O12: the trace's cycle and the events of `pre` give the same registers. -/
theorem outputsShowExactlyTheEarlierEdges : Obligations.OutputsShowExactlyTheEarlierEdges := by
  intro s pre post e hd
  refine ⟨_, runEvents_eq _ s, ?_⟩
  rw [cycleTrace_getElem?_length pre post e s hd, State.setRegs_regs, foldl_afterEvent_eventsOf]

/-- Settles O38: after eight steps no bit of `d` is left to consume. -/
theorem byteIsConsumedMostSignificantBitFirst :
    Obligations.ByteIsConsumedMostSignificantBitFirst := by
  intro r d
  calc crcByte r d = crcBit^[8] (r ^^^ d) := rfl
    _ = [7, 6, 5, 4, 3, 2, 1, 0].foldl (serialStep d) r ^^^ d <<< 8 :=
      iterate_crcBit_xor r d (Nat.le_refl 8)
    _ = [7, 6, 5, 4, 3, 2, 1, 0].foldl (serialStep d) r := by
      rw [BitVec.shiftLeft_eq_zero (Nat.le_refl 8), BitVec.xor_zero]

/-- Settles O55, by induction on the number of steps. -/
theorem nothingChangesOnceTheRowsAreUsedUp : Obligations.NothingChangesOnceTheRowsAreUsedUp := by
  intro s hi hh
  have hstep : step s = .next s := step_nil hi hh
  refine ⟨hstep, fun k => ?_⟩
  induction k with
  | zero => rfl
  | succ k ih => rw [run_succ_of_step hstep, ih]

/-! ### Tier 1 -/

/-- Settles O4: an accepting edge leaves the registers after the command, and no word held. -/
theorem stepRunsTheDecodedCommand : Obligations.StepRunsTheDecodedCommand := by
  intro s e rest i hi hb hr hv hstall hdec
  have ha : accepts e = true := accepts_eq_true_iff.2 ⟨hr, hv, hstall⟩
  rw [step_cons_of_kept hi hb, Regs.afterEdge_of_accepts ha, heldAfter_of_accepts ha,
    Regs.afterWord_of_instr hdec, exec_eq]
  rfl

end Sys2Proof.Machine
end

section
/-!
The statements about the encoding. A word decodes to a command exactly when it is that command's
word (`decode_eq_instr_iff`), which gives both round trips and the rows of R64; the counts of words
are sizes of sets of numbers.
-/

namespace Sys2Proof

/-! ### A word and its command -/

@[simp] theorem decode_encode (i : Instr) : decode (encode i) = .instr i := by
  cases i <;> simp [decode, encode, fieldsOfInstr]

theorem legalWord_encode (i : Instr) : legalWord (encode i) = true :=
  legalWord_of_instr (decode_encode i)

/-- The fields of a word are those of the command it decodes to (R63, R66). -/
theorem fieldsOf_of_instr {w : Word} {i : Instr} (h : decode w = .instr i) :
    fieldsOf w = fieldsOfInstr i := by
  unfold decode at h
  split_ifs at h <;> cases h <;> simp_all [fieldsOf, fieldsOfInstr]

/-- The decoder answers a command exactly at that command's one word. -/
theorem decode_eq_instr_iff {w : Word} {i : Instr} : decode w = .instr i ↔ w = encode i :=
  ⟨fun h => eq_packFields_iff.2 (fieldsOf_of_instr h), fun h => h ▸ decode_encode i⟩

/-- An illegal word decodes to itself, with its class (R66). -/
theorem legalWord_eq_false_iff {w : Word} :
    legalWord w = false ↔ ∃ why, decode w = .illegal w why := by
  rw [← decodeInstr_eq_none, ← Bool.not_eq_true, legalWord_iff_decode,
    Option.eq_none_iff_forall_ne_some]
  simp [decodeInstr_eq_some]

/-! ### The rows of R64 -/

theorem Instr.exists_iff {P : Instr → Prop} :
    (∃ i, P i) ↔ P .nop ∨ P .init ∨ (∃ d, P (.feed d)) ∨ ∃ c, P (.check c) := by
  constructor
  · rintro ⟨i, h⟩
    cases i with
    | nop => exact .inl h
    | init => exact .inr (.inl h)
    | feed d => exact .inr (.inr (.inl ⟨d, h⟩))
    | check c => exact .inr (.inr (.inr ⟨c, h⟩))
  · rintro (h | h | ⟨_, h⟩ | ⟨_, h⟩) <;> exact ⟨_, h⟩

/-- A row selects the words of the commands of its mnemonic (R64, R66). -/
theorem selects_iff_decode {r : Row} (hr : r ∈ rows) (w : Word) :
    r.selects w = true ↔ ∃ i, decode w = .instr i ∧ i.mnemonic = r.mnemonic := by
  simp only [Instr.exists_iff, decode_eq_instr_iff, encode, eq_packFields_iff]
  simp only [rows_eq, List.mem_cons, List.not_mem_nil, or_false] at hr
  rcases hr with rfl | rfl | rfl | rfl
  · simp [selects_fullMask, fieldsOfInstr, Instr.mnemonic]
  · simp [selects_fullMask, fieldsOfInstr, Instr.mnemonic]
  · simp [selects_upperMask, fieldsOfInstr, Instr.mnemonic, fieldsOf]
  · simp [selects_upperMask, fieldsOfInstr, Instr.mnemonic, fieldsOf]

/-- No two rows of R64 have one mnemonic. -/
theorem rows_filter_mnemonic_length_le_one (m : Option Mnemonic) :
    (rows.filter fun r => m == some r.mnemonic).length ≤ 1 := by
  cases m with
  | none => decide
  | some m => cases m <;> decide

/-- At most one row matches a word, that of its command's mnemonic (R64). -/
theorem rows_filter_selects_length_le_one (w : Word) :
    (rows.filter fun r => r.selects w).length ≤ 1 := by
  have hfilter : rows.filter (fun r => r.selects w) =
      rows.filter fun r => (decodeInstr w).map Instr.mnemonic == some r.mnemonic := by
    refine List.filter_congr fun r hr => Bool.eq_iff_iff.2 ?_
    simp [selects_iff_decode hr, decodeInstr_eq_some]
  rw [hfilter]
  exact rows_filter_mnemonic_length_le_one _

/-! ### Words as numbers, and their counts -/

/-- The legal words are 0x0000, 0x0100 and 0x0200 to 0x03FF (R64). -/
theorem legalWord_iff_toNat (w : Word) : legalWord w = true ↔
    w.toNat = 0x0000 ∨ w.toNat = 0x0100 ∨ 0x0200 ≤ w.toNat ∧ w.toNat ≤ 0x03FF := by
  obtain ⟨hrsv, hop, hdata⟩ := fields_toNat w
  have := w.isLt
  simp only [legalWord_iff_fields, fieldsOf, Fields.mk.injEq, ← BitVec.toNat_inj, hrsv, hop, hdata,
    BitVec.toNat_ofNat]
  omega

/-- The number of words with a property is the size of the set of their numbers. -/
theorem countWords_eq_card {p : Word → Bool} (S : Finset ℕ) (hS : ∀ n ∈ S, n < 2 ^ 16)
    (h : ∀ w : Word, p w = true ↔ w.toNat ∈ S) : countWords p = S.card := by
  rw [countWords, ← List.toFinset_card_of_nodup (List.nodup_range.filter _)]
  congr 1
  ext n
  simp only [List.mem_toFinset, List.mem_filter, List.mem_range, h, BitVec.toNat_ofNat]
  constructor
  · rintro ⟨hn, hmem⟩
    rwa [Nat.mod_eq_of_lt hn] at hmem
  · exact fun hmem => ⟨hS n hmem, by rwa [Nat.mod_eq_of_lt (hS n hmem)]⟩

theorem countWords_add_countWords_not (p : Word → Bool) :
    countWords p + countWords (fun w => !p w) = 2 ^ 16 := by
  rw [countWords, countWords, ← List.length_eq_length_filter_add, List.length_range]

theorem countWords_legalWord : countWords legalWord = 514 := by
  rw [countWords_eq_card (insert 0x0000 (insert 0x0100 (Finset.Icc 0x0200 0x03FF))) (fun n hn => ?_)
    (by simp [legalWord_iff_toNat])]
  · simp
  · simp only [Finset.mem_insert, Finset.mem_Icc] at hn
    omega

/-! ### The three classes of R65 -/

theorem decode_eq_reservedBits_iff (w : Word) :
    decode w = .illegal w .reservedBits ↔ rsvOf w ≠ 0#4 := by
  unfold decode
  split_ifs <;> simp_all

theorem four_le_toNat_iff : ∀ op : BitVec 4,
    4 ≤ op.toNat ↔ op ≠ 0x0#4 ∧ op ≠ 0x1#4 ∧ op ≠ 0x2#4 ∧ op ≠ 0x3#4 := by decide

theorem toNat_lt_two_iff : ∀ op : BitVec 4, op.toNat < 2 ↔ op = 0x0#4 ∨ op = 0x1#4 := by decide

theorem decode_eq_unassignedOp_iff (w : Word) :
    decode w = .illegal w .unassignedOp ↔ rsvOf w = 0#4 ∧ 4 ≤ (opOf w).toNat := by
  rw [four_le_toNat_iff]
  unfold decode
  split_ifs <;> simp_all

theorem decode_eq_unexpectedData_iff (w : Word) :
    decode w = .illegal w .unexpectedData ↔
      rsvOf w = 0#4 ∧ (opOf w).toNat < 2 ∧ dataOf w ≠ 0x00#8 := by
  rw [toNat_lt_two_iff]
  unfold decode
  split_ifs <;> simp_all

theorem countWords_reservedBits :
    countWords (fun w => decide (decode w = .illegal w .reservedBits)) = 61440 := by
  rw [countWords_eq_card (Finset.Ico 0x1000 0x10000) (fun n hn => (Finset.mem_Ico.1 hn).2)
    fun w => ?_]
  · simp
  · obtain ⟨hrsv, -, -⟩ := fields_toNat w
    have := w.isLt
    simp only [decide_eq_true_eq, decode_eq_reservedBits_iff, ne_eq, ← BitVec.toNat_inj, hrsv,
      BitVec.toNat_ofNat, Finset.mem_Ico]
    omega

theorem countWords_unassignedOp :
    countWords (fun w => decide (decode w = .illegal w .unassignedOp)) = 3072 := by
  rw [countWords_eq_card (Finset.Ico 0x0400 0x1000) (fun n hn => ?_) fun w => ?_]
  · simp
  · rw [Finset.mem_Ico] at hn
    omega
  · obtain ⟨hrsv, hop, -⟩ := fields_toNat w
    simp only [decide_eq_true_eq, decode_eq_unassignedOp_iff, ← BitVec.toNat_inj, hrsv, hop,
      BitVec.toNat_ofNat, Finset.mem_Ico]
    omega

/-- The 512 words of `RSV` = 0 and `OP` 0x0 or 0x1, but for the words of NOP and INIT. -/
theorem countWords_unexpectedData :
    countWords (fun w => decide (decode w = .illegal w .unexpectedData)) = 510 := by
  rw [countWords_eq_card (((Finset.range 0x0200).erase 0x0000).erase 0x0100) (fun n hn => ?_)
    fun w => ?_]
  · simp
  · simp only [Finset.mem_erase, Finset.mem_range] at hn
    omega
  · obtain ⟨hrsv, hop, hdata⟩ := fields_toNat w
    simp only [decide_eq_true_eq, decode_eq_unexpectedData_iff, ne_eq, ← BitVec.toNat_inj, hrsv,
      hop, hdata, BitVec.toNat_ofNat, Finset.mem_erase, Finset.mem_range]
    omega

end Sys2Proof

namespace Sys2Proof.Machine

/-! ### Tier 3 -/

/-- Settles O16: the decoder inverts the encoder. -/
theorem decodeOfEncodeIsTheCommand : Obligations.DecodeOfEncodeIsTheCommand :=
  fun i => ⟨decode_encode i, legalWord_encode i⟩

/-! ### Tier 2 -/

/-- Settles O17: only a command's own word decodes to it. -/
theorem legalWordIsTheEncodingOfItsCommand : Obligations.LegalWordIsTheEncodingOfItsCommand :=
  fun _ _ h => (decode_eq_instr_iff.1 h).symm

/-- Settles O18: a row's words are those of its mnemonic, and no two rows share a mnemonic. -/
theorem decoderFollowsTheMatchAndMaskRows : Obligations.DecoderFollowsTheMatchAndMaskRows :=
  ⟨rfl, countWords_legalWord, fun w => ⟨rows_filter_selects_length_le_one w,
    fun _ _ => beq_iff_eq, fun _ hr => selects_iff_decode hr w, legalWord_iff_toNat w⟩⟩

/-- Settles O19: each class by its fields, and the count of all illegal words from that of the legal
ones. -/
theorem illegalWordsFallIntoTheThreeClasses : Obligations.IllegalWordsFallIntoTheThreeClasses := by
  refine ⟨fun w => ⟨by simp [legalWord], legalWord_eq_false_iff, fun hw s => ?_,
    decode_eq_reservedBits_iff w, decode_eq_unassignedOp_iff w, decode_eq_unexpectedData_iff w⟩,
    countWords_reservedBits, countWords_unassignedOp, countWords_unexpectedData, ?_⟩
  · obtain ⟨why, hdec⟩ := legalWord_eq_false_iff.1 hw
    exact acceptWord_of_illegal hdec s
  · have htotal := countWords_add_countWords_not legalWord
    rw [countWords_legalWord] at htotal
    omega

/-! ### Tier 1 -/

/-- Settles O15, by the model's own four words. -/
theorem tableWordsDecodeToTheirCommands : Obligations.TableWordsDecodeToTheirCommands :=
  ⟨decode_word_nop, decode_word_init, decode_word_feed, decode_word_check⟩

end Sys2Proof.Machine
end

section
/-!
The statements about the assembly language. A line of text is read in two steps: its name and what
stands behind it (`assembleLine_of_parts`), and the operands between the commas of the latter
(`operandsOf_trimRight`). The disassembler's lines are read by the same two lemmas; the digits are
read back four bits at a time.
-/

namespace Sys2Proof.Machine

/-! ### Blanks around the rest of a line -/

/-- What is trimmed away altogether is a text of blanks. -/
theorem isBlank_of_trimBlanks_eq_nil {xs : List Char} (h : trimBlanks xs = []) :
    ∀ c ∈ xs, isBlank c = true := by
  have hdrop : ∀ c ∈ xs.dropWhile isBlank, isBlank c = true := List.rdropWhile_eq_nil_iff.1 h
  intro c hc
  rw [← List.takeWhile_append_dropWhile (p := isBlank) (l := xs), List.mem_append] at hc
  exact hc.elim List.mem_takeWhile_imp (hdrop c)

theorem ne_of_isBlank {c sep : Char} (hsep : isBlank sep = false) (hc : isBlank c = true) :
    c ≠ sep := by
  rintro rfl
  simp [hc] at hsep

/-! ### The name of a line and the text behind it -/

/-- A text that starts with a blank, if it is not empty, ends the name before it. -/
theorem takeWhile_name {name rest : List Char} (hname : ∀ c ∈ name, isBlank c = false)
    (hrest : ∀ c ∈ rest.head?, isBlank c = true) :
    (name ++ rest).takeWhile (fun c => !isBlank c) = name := by
  rw [List.takeWhile_append_of_pos (by simpa using hname)]
  cases rest with
  | nil => simp
  | cons r rest => simp [hrest r rfl]

theorem dropWhile_name {name rest : List Char} (hname : ∀ c ∈ name, isBlank c = false)
    (hrest : ∀ c ∈ rest.head?, isBlank c = true) :
    (name ++ rest).dropWhile (fun c => !isBlank c) = rest := by
  rw [List.dropWhile_append_of_pos (by simpa using hname)]
  cases rest with
  | nil => simp
  | cons r rest => simp [hrest r rfl]

theorem head?_trimRight {c : Char} {xs : List Char} (h : c ∈ (trimRight xs).head?) :
    c ∈ xs.head? := by
  obtain ⟨ys, hys⟩ := trimRight_prefix xs
  rw [← hys, List.head?_append, Option.mem_def.1 h]
  rfl

/-- Blanks before the name, and a comment, are no part of a line's code (R69). -/
theorem codeOf_of_parts {before name rest comment : List Char}
    (hbefore : ∀ c ∈ before, isBlank c = true) (hne : name ≠ [])
    (hname : ∀ c ∈ name, isBlank c = false ∧ c ≠ ';') (hrest : ∀ c ∈ rest, c ≠ ';')
    (hcomment : comment = [] ∨ comment.head? = some ';') :
    codeOf (before ++ name ++ rest ++ comment) = name ++ trimRight rest := by
  have hcode : ∀ c ∈ before ++ name ++ rest, c ≠ ';' := by
    simp only [List.mem_append]
    rintro c ((hc | hc) | hc)
    · exact ne_of_isBlank (by decide) (hbefore c hc)
    · exact (hname c hc).2
    · exact hrest c hc
  have hsolid : ∀ c ∈ name, isBlank c = false := fun c hc => (hname c hc).1
  rw [codeOf, takeWhile_before_comment hcode hcomment, List.append_assoc,
    trimBlanks_blank_append hbefore]
  cases name with
  | nil => exact absurd rfl hne
  | cons x xs =>
    rw [List.cons_append, trimBlanks_of_solid_head (hsolid x (by simp)), ← List.cons_append,
      trimRight_append_solid hsolid]

/-- A line is read as its name and the operands in the text behind it. -/
theorem assembleLine_of_parts {before name rest comment : List Char}
    (hbefore : ∀ c ∈ before, isBlank c = true) (hne : name ≠ [])
    (hname : ∀ c ∈ name, isBlank c = false ∧ c ≠ ';') (hrest : ∀ c ∈ rest, c ≠ ';')
    (hgap : ∀ c ∈ rest.head?, isBlank c = true)
    (hcomment : comment = [] ∨ comment.head? = some ';') :
    assembleLine (before ++ name ++ rest ++ comment) =
      (parseHead name).elim (.error .unknownMnemonic)
        fun head => expand head (operandsOf (trimRight rest)) := by
  have hcode := codeOf_of_parts hbefore hne hname hrest hcomment
  have hsolid : ∀ c ∈ name, isBlank c = false := fun c hc => (hname c hc).1
  have hgap' : ∀ c ∈ (trimRight rest).head?, isBlank c = true :=
    fun c hc => hgap c (head?_trimRight hc)
  rw [assembleLine, nameOn, operandsOn, hcode, takeWhile_name hsolid hgap',
    dropWhile_name hsolid hgap', if_neg (by simp [hne])]
  cases parseHead name <;> rfl

/-- A line of blanks and perhaps a comment emits no word (R69). -/
theorem assembleLine_of_blank {blanks comment : List Char} (h : ∀ c ∈ blanks, isBlank c = true)
    (hcomment : comment = [] ∨ comment.head? = some ';') :
    assembleLine (blanks ++ comment) = .ok [] := by
  have hcode : codeOf (blanks ++ comment) = [] := by
    rw [codeOf, takeWhile_before_comment (fun c hc => ne_of_isBlank (by decide) (h c hc)) hcomment]
    simpa using trimBlanks_padded h (xs := []) (r := []) (by simp) (by simp)
  simp [assembleLine, hcode]

/-! ### The operands of a line -/

/-- What may stand as an operand: characters that are no blank, no comma and no semicolon (R71). -/
def IsOperand (op : List Char) : Prop :=
  op ≠ [] ∧ ∀ c ∈ op, isBlank c = false ∧ c ≠ ',' ∧ c ≠ ';'

theorem IsOperand.solid {op : List Char} (h : IsOperand op) : ∀ c ∈ op, isBlank c = false := by
  intro c hc
  obtain ⟨hblank, -, -⟩ := h.2 c hc
  exact hblank

theorem IsOperand.no_comma {op : List Char} (h : IsOperand op) : ∀ c ∈ op, c ≠ ',' := by
  intro c hc
  obtain ⟨-, hcomma, -⟩ := h.2 c hc
  exact hcomma

theorem IsOperand.no_semicolon {op : List Char} (h : IsOperand op) : ∀ c ∈ op, c ≠ ';' := by
  intro c hc
  obtain ⟨-, -, hsemicolon⟩ := h.2 c hc
  exact hsemicolon

/-- Operands as they may stand on a line: between commas, with blanks around each (R71). -/
def operandText (left right : List Char) (ops : List (List Char)) : List Char :=
  List.intercalate [','] (ops.map fun op => left ++ op ++ right)

theorem operandText_cons_cons (left right op op' : List Char) (ops : List (List Char)) :
    operandText left right (op :: op' :: ops) =
      left ++ op ++ right ++ ',' :: operandText left right (op' :: ops) := by
  simp [operandText, List.intercalate_cons_cons]

/-- Blanks behind a word are trimmed, whatever stands before it. -/
theorem IsOperand.trimRight_append {op post : List Char} (hop : IsOperand op)
    (hpost : ∀ c ∈ post, isBlank c = true) (pre : List Char) :
    trimRight (pre ++ op ++ post) = pre ++ op := by
  cases op with
  | nil => exact absurd rfl hop.1
  | cons x xs =>
    have hxs : ∀ c ∈ xs, isBlank c = false := fun c hc => hop.solid c (by simp [hc])
    rw [List.append_assoc, List.cons_append, trimRight_append_cons (hop.solid x (by simp)),
      trimRight_append_solid hxs, trimRight_blank hpost, List.append_nil]

section Operands

variable {left right : List Char} (hleft : ∀ c ∈ left, isBlank c = true)
  (hright : ∀ c ∈ right, isBlank c = true)
include hleft hright

/-- Blanks around a word bring in no comma and no semicolon. -/
theorem ne_of_mem_padded {sep : Char} (hsep : isBlank sep = false) {op : List Char}
    (hop : ∀ c ∈ op, c ≠ sep) : ∀ c ∈ left ++ op ++ right, c ≠ sep := by
  simp only [List.mem_append]
  rintro c ((hc | hc) | hc)
  · exact ne_of_isBlank hsep (hleft c hc)
  · exact hop c hc
  · exact ne_of_isBlank hsep (hright c hc)

variable {ops : List (List Char)} (hops : ∀ op ∈ ops, IsOperand op)
include hops

theorem ne_semicolon_of_mem_operandText : ∀ c ∈ operandText left right ops, c ≠ ';' := by
  induction ops with
  | nil => simp [operandText]
  | cons op ops ih =>
    obtain ⟨hop, hmore⟩ := List.forall_mem_cons.1 hops
    have hpiece := ne_of_mem_padded hleft hright (by decide) hop.no_semicolon
    cases ops with
    | nil => simpa [operandText] using hpiece
    | cons op' ops =>
      rw [operandText_cons_cons, List.forall_mem_append, List.forall_mem_cons]
      exact ⟨hpiece, by decide, ih hmore⟩

variable {after : List Char} (hafter : ∀ c ∈ after, isBlank c = true)
include hafter

/-- The commas give back the operands, whatever blanks stand around them and the whole. -/
theorem splitAtChar_operandText (hne : ops ≠ []) {gap : List Char}
    (hgap : ∀ c ∈ gap, isBlank c = true) :
    (splitAtChar ',' (trimRight (gap ++ operandText left right ops ++ after))).map trimBlanks =
      ops := by
  induction ops generalizing gap with
  | nil => exact absurd rfl hne
  | cons op ops ih =>
    obtain ⟨hop, hmore⟩ := List.forall_mem_cons.1 hops
    have hpad : ∀ c ∈ gap ++ left, isBlank c = true := List.forall_mem_append.2 ⟨hgap, hleft⟩
    cases ops with
    | nil =>
      have htext : gap ++ operandText left right [op] ++ after =
          gap ++ left ++ op ++ (right ++ after) := by simp [operandText]
      rw [htext, hop.trimRight_append (List.forall_mem_append.2 ⟨hright, hafter⟩),
        splitAtChar_of_none, List.map_singleton]
      · simpa using trimBlanks_padded hpad hop.solid (r := []) (by simp)
      · simpa using ne_of_mem_padded hpad (right := []) (by simp) (by decide) hop.no_comma
    | cons op' ops =>
      have htext : gap ++ operandText left right (op :: op' :: ops) ++ after =
          gap ++ left ++ op ++ right ++ ',' ::
            ([] ++ operandText left right (op' :: ops) ++ after) := by
        simp [operandText_cons_cons]
      rw [htext, trimRight_append_cons (by decide), splitAtChar_append_sep
        (ne_of_mem_padded hpad hright (by decide) hop.no_comma), List.map_cons,
        trimBlanks_padded hpad hop.solid hright, ih hmore (List.cons_ne_nil op' ops) (by simp)]

/-- The text behind the name of a line is read as its operands (R69, R71). -/
theorem operandsOf_trimRight {gap : List Char} (hgap : ∀ c ∈ gap, isBlank c = true) :
    operandsOf (trimRight (gap ++ operandText left right ops ++ after)) = ops := by
  by_cases hne : ops = []
  · subst hne
    rw [operandText, List.map_nil, List.intercalate_nil, List.append_nil,
      trimRight_blank (List.forall_mem_append.2 ⟨hgap, hafter⟩)]
    rfl
  · have hsplit := splitAtChar_operandText hleft hright hops hafter hne hgap
    have htext : trimBlanks (trimRight (gap ++ operandText left right ops ++ after)) ≠ [] := by
      intro hnil
      have hblank := isBlank_of_trimBlanks_eq_nil hnil
      rw [splitAtChar_of_none fun c hc => ne_of_isBlank (by decide) (hblank c hc),
        List.map_singleton, hnil] at hsplit
      exact (hops [] (by simp [← hsplit])).1 rfl
    rw [operandsOf, if_neg (by simpa using htext), hsplit]

end Operands

/-- A gap ends the name of a line, and so does a line with no operand. -/
theorem isBlank_of_head?_operandText {gap left right after : List Char} {ops : List (List Char)}
    (hgap : ∀ c ∈ gap, isBlank c = true) (hafter : ∀ c ∈ after, isBlank c = true)
    (h : gap ≠ [] ∨ ops = []) :
    ∀ c ∈ (gap ++ operandText left right ops ++ after).head?, isBlank c = true := by
  rcases h with h | rfl
  · cases gap with
    | nil => exact absurd rfl h
    | cons g gap => simpa using hgap g (by simp)
  · intro c hc
    rw [operandText, List.map_nil, List.intercalate_nil, List.append_nil] at hc
    exact List.forall_mem_append.2 ⟨hgap, hafter⟩ c (List.mem_of_mem_head? hc)

/-! ### Names -/

/-- The name that stands for a head, in upper case (R69 to R71). -/
def AsmHead.name : AsmHead → List Char
  | .command .nop => ['N', 'O', 'P']
  | .command .init => ['I', 'N', 'I', 'T']
  | .command .feed => ['F', 'E', 'E', 'D']
  | .command .check => ['C', 'H', 'E', 'C', 'K']
  | .frame => ['F', 'R', 'A', 'M', 'E']
  | .crcSeq => ['C', 'R', 'C', 'S', 'E', 'Q']
  | .residue => ['R', 'E', 'S', 'I', 'D', 'U', 'E']
  | .word => ['.', 'W', 'O', 'R', 'D']

/-- A name is read in any case (R69). -/
theorem parseHead_eq_some_iff {cs : List Char} {head : AsmHead} :
    parseHead cs = some head ↔ cs.map Char.toUpper = head.name := by
  constructor
  · intro h
    simp only [parseHead] at h
    split_ifs at h <;> cases h <;> assumption
  · intro h
    simp only [parseHead, h]
    cases head with
    | command m => cases m <;> rfl
    | frame | crcSeq | residue | word => rfl

theorem parseHead_nil : parseHead [] = none := by decide

/-! ### Digits -/

/-- Printed digits are read back as the number they spell. -/
theorem digitsFrom_map_hexDigit (acc : Nat) (ds : List (BitVec 4)) :
    digitsFrom 16 acc (ds.map hexDigit) = some (ds.foldl (fun v d => 16 * v + d.toNat) acc) := by
  induction ds generalizing acc with
  | nil => rfl
  | cons d ds ih =>
    obtain ⟨hd, -⟩ := hexDigit_spec d
    rw [List.map_cons, digitsFrom, hd, Option.bind_some, ih, List.foldl_cons]

theorem toNat_append_nibble {n : Nat} (x : BitVec n) (d : BitVec 4) :
    (x ++ d).toNat = 16 * x.toNat + d.toNat := by
  rw [BitVec.toNat_append, ← Nat.shiftLeft_add_eq_or_of_lt d.isLt, Nat.shiftLeft_eq, Nat.mul_comm]

theorem parseDigits_byte (a b : BitVec 4) :
    parseDigits 16 [hexDigit a, hexDigit b] = some (a ++ b).toNat := by
  have h := digitsFrom_map_hexDigit 0 [a, b]
  simpa [parseDigits, toNat_append_nibble] using h

theorem parseDigits_word (a b c d : BitVec 4) :
    parseDigits 16 [hexDigit a, hexDigit b, hexDigit c, hexDigit d] =
      some (a ++ b ++ c ++ d).toNat := by
  have h := digitsFrom_map_hexDigit 0 [a, b, c, d]
  simpa [parseDigits, toNat_append_nibble] using h

theorem parseByte_printByte (b : Byte) : parseByte (printByte b) = .ok b := by
  have hb : b.extractLsb' 4 4 ++ b.extractLsb' 0 4 = b := by
    rw [BitVec.extractLsb'_append_extractLsb'_eq_extractLsb' (by rfl)]
    exact BitVec.extractLsb'_eq_self
  have hnum : parseNumber (printByte b) = some b.toNat :=
    (parseDigits_byte _ _).trans (by rw [hb])
  have : b.toNat ≤ 255 := by omega
  simp [parseByte, hnum, this]

theorem parseWord_hexDigits (a b c d : BitVec 4) :
    parseWord ['0', 'x', hexDigit a, hexDigit b, hexDigit c, hexDigit d] =
      .ok (a ++ b ++ c ++ d) := by
  simp [parseWord, parseDigits_word]

/-! ### The words a line emits -/

theorem assembleLine_of_head {line : List Char} {head : AsmHead}
    (h : parseHead (nameOn line) = some head) :
    assembleLine line = expand head (operandsOn line) := by
  have hcode : codeOf line ≠ [] := by
    intro hnil
    rw [nameOn, hnil, List.takeWhile_nil, parseHead_nil] at h
    cases h
  rw [assembleLine, if_neg (by simpa using hcode), h]

theorem assembleLine_of_no_head {line : List Char} (hcode : codeOf line ≠ [])
    (h : parseHead (nameOn line) = none) : assembleLine line = .error .unknownMnemonic := by
  rw [assembleLine, if_neg (by simpa using hcode), h]

/-- A line emits words only by its head, but for a line with no name. -/
theorem assembleLine_eq_ok {line : List Char} {ws : List Word} (h : assembleLine line = .ok ws) :
    ws = [] ∨
      ∃ head, parseHead (nameOn line) = some head ∧ expand head (operandsOn line) = .ok ws := by
  cases hhead : parseHead (nameOn line) with
  | some head => exact .inr ⟨head, rfl, assembleLine_of_head hhead ▸ h⟩
  | none =>
    by_cases hcode : codeOf line = []
    · exact .inl (by simpa [assembleLine, hcode] using h.symm)
    · simp [assembleLine_of_no_head hcode hhead] at h

theorem withNoOperand_eq_ok {ops : List (List Char)} {is : List Instr} {ws : List Word}
    (h : withNoOperand ops is = .ok ws) : ws = is.map encode := by
  unfold withNoOperand at h
  split_ifs at h
  cases h
  rfl

theorem withOneByte_eq_ok {ops : List (List Char)} {f : Byte → List Instr} {ws : List Word}
    (h : withOneByte ops f = .ok ws) : ∃ b, ws = (f b).map encode := by
  unfold withOneByte at h
  split at h
  · cases h
  · split at h <;> cases h
    exact ⟨_, rfl⟩
  · cases h

theorem withThreeBytes_eq_ok {ops : List (List Char)} {f : Byte → Byte → Byte → List Instr}
    {ws : List Word} (h : withThreeBytes ops f = .ok ws) :
    ∃ d0 d1 c, ws = (f d0 d1 c).map encode := by
  unfold withThreeBytes at h
  split at h <;> cases h
  exact ⟨_, _, _, rfl⟩

/-- But for `.word`, a line stands for commands (R69, R71). -/
theorem expand_eq_ok {head : AsmHead} {ops : List (List Char)} {ws : List Word}
    (hword : head ≠ .word) (h : expand head ops = .ok ws) :
    ∃ is : List Instr, ws = is.map encode := by
  cases head with
  | command m =>
    cases m with
    | nop | init => exact ⟨_, withNoOperand_eq_ok h⟩
    | feed | check =>
      obtain ⟨_, hws⟩ := withOneByte_eq_ok h
      exact ⟨_, hws⟩
  | frame | residue =>
    obtain ⟨_, _, _, hws⟩ := withThreeBytes_eq_ok h
    exact ⟨_, hws⟩
  | crcSeq =>
    simp only [expand] at h
    split at h <;> cases h
    exact ⟨_, rfl⟩
  | word => exact absurd rfl hword

theorem legalWord_of_assembleLine {line : List Char} {ws : List Word}
    (hword : parseHead (nameOn line) ≠ some .word) (h : assembleLine line = .ok ws) :
    ∀ w ∈ ws, legalWord w = true := by
  rcases assembleLine_eq_ok h with rfl | ⟨head, hhead, hws⟩
  · simp
  · obtain ⟨is, rfl⟩ := expand_eq_ok (fun he => hword (he ▸ hhead)) hws
    simp [legalWord_encode]

/-- The lines are counted from `n`, and the first refused one is named (R70). -/
theorem assembleFrom_append_error {good : List (List Char)} {bad : List Char} {p : AsmProblem}
    (hgood : ∀ l ∈ good, ∃ ws, assembleLine l = .ok ws) (hbad : assembleLine bad = .error p)
    (more : List (List Char)) (n : Nat) :
    assembleFrom n (good ++ bad :: more) = .error ⟨n + good.length, p⟩ := by
  induction good generalizing n with
  | nil => simp [assembleFrom, hbad]
  | cons line good ih =>
    obtain ⟨ws, hws⟩ := hgood line (by simp)
    rw [List.cons_append, assembleFrom, hws, ih fun l hl => hgood l (by simp [hl])]
    simp [Nat.add_assoc, Nat.add_comm 1]

/-! ### Printed lines -/

theorem isOperand_hexNumber (ds : List (BitVec 4)) :
    IsOperand ('0' :: 'x' :: ds.map hexDigit) := by
  refine ⟨by simp, ?_⟩
  simp only [List.forall_mem_cons, List.forall_mem_map]
  refine ⟨by decide, by decide, fun d _ => ?_⟩
  obtain ⟨-, hsemicolon, hblank, hcomma⟩ := hexDigit_spec d
  exact ⟨hblank, hcomma, hsemicolon⟩

/-- A name, a blank and one hexadecimal number, with what may follow, is read as these two. -/
theorem assembleLine_hexNumber {name after comment : List Char} {head : AsmHead}
    (hhead : parseHead name = some head) (hname : ∀ c ∈ name, isBlank c = false ∧ c ≠ ';')
    (hafter : ∀ c ∈ after, isBlank c = true) (hcomment : comment = [] ∨ comment.head? = some ';')
    (ds : List (BitVec 4)) :
    assembleLine (name ++ ([' '] ++ '0' :: 'x' :: ds.map hexDigit ++ after) ++ comment) =
      expand head ['0' :: 'x' :: ds.map hexDigit] := by
  have hop := isOperand_hexNumber ds
  have hgap : ∀ c ∈ [' '], isBlank c = true := by simp [isBlank]
  have hne : name ≠ [] := by
    rintro rfl
    cases hhead
  have hops := operandsOf_trimRight (left := []) (right := []) (by simp) (by simp)
    (List.forall_mem_singleton.2 hop) hafter hgap
  have hline := assembleLine_of_parts (before := []) (by simp) hne hname
    (ne_of_mem_padded hgap hafter (by decide) hop.no_semicolon) (by simp [isBlank]) hcomment
  rw [List.nil_append, hhead] at hline
  exact hline.trans (congrArg (expand head) (by simpa [operandText] using hops))

theorem assembleLine_printByte {name : List Char} {head : AsmHead}
    (hhead : parseHead name = some head) (hname : ∀ c ∈ name, isBlank c = false ∧ c ≠ ';')
    (b : Byte) : assembleLine (name ++ [' '] ++ printByte b) = expand head [printByte b] := by
  simpa [printByte] using assembleLine_hexNumber (after := []) (comment := []) hhead hname (by simp)
    (.inl rfl) [b.extractLsb' 4 4, b.extractLsb' 0 4]

/-- A printed command is assembled to its word (R72). -/
theorem assembleLine_printInstr (i : Instr) : assembleLine (printInstr i) = .ok [encode i] := by
  cases i with
  | nop | init => decide
  | feed d =>
    have hline := assembleLine_printByte (name := ['F', 'E', 'E', 'D']) (head := .command .feed)
      (parseHead_eq_some_iff.2 rfl) (by simp [isBlank]) d
    exact hline.trans (by simp [expand, withOneByte, parseByte_printByte])
  | check c =>
    have hline := assembleLine_printByte (name := ['C', 'H', 'E', 'C', 'K'])
      (head := .command .check) (parseHead_eq_some_iff.2 rfl) (by simp [isBlank]) c
    exact hline.trans (by simp [expand, withOneByte, parseByte_printByte])

theorem expand_word_hexDigits (a b c d : BitVec 4) :
    expand .word [['0', 'x', hexDigit a, hexDigit b, hexDigit c, hexDigit d]] =
      .ok [a ++ b ++ c ++ d] := by
  simp [expand, parseWord_hexDigits]

theorem append_nibbles (w : Word) :
    w.extractLsb' 12 4 ++ w.extractLsb' 8 4 ++ w.extractLsb' 4 4 ++ w.extractLsb' 0 4 = w := by
  rw [BitVec.extractLsb'_append_extractLsb'_eq_extractLsb' (by rfl),
    BitVec.extractLsb'_append_extractLsb'_eq_extractLsb' (by rfl),
    BitVec.extractLsb'_append_extractLsb'_eq_extractLsb' (by rfl)]
  exact BitVec.extractLsb'_eq_self

/-- A printed illegal word is assembled to itself (R72). -/
theorem assembleLine_printIllegal (w : Word) : assembleLine (printIllegal w) = .ok [w] := by
  calc assembleLine (printIllegal w)
    _ = expand .word [['0', 'x', hexDigit (w.extractLsb' 12 4), hexDigit (w.extractLsb' 8 4),
          hexDigit (w.extractLsb' 4 4), hexDigit (w.extractLsb' 0 4)]] :=
      assembleLine_hexNumber (name := ['.', 'w', 'o', 'r', 'd']) (after := [' '])
        (comment := [';', ' ', 'i', 'l', 'l', 'e', 'g', 'a', 'l']) (parseHead_eq_some_iff.2 rfl)
        (by simp [isBlank]) (by simp [isBlank]) (.inr rfl)
        [w.extractLsb' 12 4, w.extractLsb' 8 4, w.extractLsb' 4 4, w.extractLsb' 0 4]
    _ = .ok [w] := by rw [expand_word_hexDigits, append_nibbles]

theorem disassemble_of_instr {w : Word} {i : Instr} (h : decode w = .instr i) :
    disassemble w = printInstr i := by
  simp [disassemble, h]

theorem disassemble_of_illegal {w v : Word} {why : IllegalClass} (h : decode w = .illegal v why) :
    disassemble w = printIllegal v := by
  simp [disassemble, h]

theorem assembleLine_disassemble (w : Word) : assembleLine (disassemble w) = .ok [w] := by
  cases hw : legalWord w with
  | true =>
    obtain ⟨i, hi⟩ := (legalWord_iff_decode w).1 hw
    rw [disassemble_of_instr hi, assembleLine_printInstr, decode_eq_instr_iff.1 hi]
  | false =>
    obtain ⟨why, hwhy⟩ := legalWord_eq_false_iff.1 hw
    rw [disassemble_of_illegal hwhy, assembleLine_printIllegal]

/-! ### Tier 3 -/

/-- Settles O51: a printed command and a printed illegal word are each read back. -/
theorem assemblingADisassemblyGivesTheWord : Obligations.AssemblingADisassemblyGivesTheWord := by
  have hprint (i : Instr) : disassemble (encode i) = printInstr i :=
    disassemble_of_instr (decode_encode i)
  refine ⟨assembleLine_disassemble, hprint .nop, hprint .init, fun d => hprint (.feed d),
    fun c => hprint (.check c), fun w hw => ?_, by decide⟩
  obtain ⟨why, hwhy⟩ := legalWord_eq_false_iff.1 hw
  exact disassemble_of_illegal hwhy

/-! ### Tier 2 -/

/-- Settles O52: each refusal by the arm of the line's head, and legal words because every other head
stands for commands. -/
theorem assemblerRefusesBadLines : Obligations.AssemblerRefusesBadLines := by
  refine ⟨fun _ => assembleLine_of_no_head, ?_, ?_, fun _ _ => legalWord_of_assembleLine,
    fun line a b c d hhead hops => ?_, fun good bad more p hgood hbad => ?_⟩
  · rintro line m (rfl | rfl) hhead hops <;>
      simp [assembleLine_of_head hhead, expand, withNoOperand, hops]
  · intro line m hm hhead
    have hexpand : ∃ f, expand (.command m) (operandsOn line) =
        withOneByte (operandsOn line) f := by
      rcases hm with rfl | rfl <;> exact ⟨_, rfl⟩
    obtain ⟨f, hf⟩ := hexpand
    rw [assembleLine_of_head hhead, hf]
    refine ⟨fun hops => by rw [hops]; rfl, fun hlen => ?_, fun a n hops hnum hn => ?_⟩
    · match hops : operandsOn line with
      | [] | [_] => simp [hops] at hlen
      | _ :: _ :: _ => rfl
    · simp [hops, withOneByte, parseByte, hnum, Nat.not_le.2 hn]
  · rw [assembleLine_of_head hhead, hops, expand_word_hexDigits]
  · rw [assembleFrom_append_error hgood hbad more 1, Nat.add_comm]

/-- Settles O54: the name's case, the parts of a line, and the operands between commas. -/
theorem lineIsReadAsItsNameAndOperands : Obligations.LineIsReadAsItsNameAndOperands := by
  refine ⟨fun name => ⟨parseHead_eq_some_iff, parseHead_eq_some_iff, parseHead_eq_some_iff,
    parseHead_eq_some_iff⟩, ?_, fun _ _ => assembleLine_of_blank⟩
  intro before name gap left right after comment ops hblank hne hname hgap hops hcomment
  simp only [List.forall_mem_append] at hblank
  obtain ⟨⟨⟨⟨hbefore, hgapBlank⟩, hleft⟩, hright⟩, hafter⟩ := hblank
  have hrest : ∀ c ∈ gap ++ operandText left right ops ++ after, c ≠ ';' :=
    ne_of_mem_padded hgapBlank hafter (by decide)
      (ne_semicolon_of_mem_operandText hleft hright hops)
  have hread := operandsOf_trimRight hleft hright hops hafter hgapBlank
  have hline := assembleLine_of_parts hbefore hne hname hrest
    (isBlank_of_head?_operandText hgapBlank hafter hgap) hcomment
  rw [hread] at hline
  simp only [operandText, List.append_assoc] at hline ⊢
  rw [hline]
  cases parseHead name <;> rfl

/-! ### Tier 1 -/

/-- Settles O53: three operands that read as bytes, and the arm of each pseudo-instruction. -/
theorem pseudoInstructionsExpandToTheirCommands :
    Obligations.PseudoInstructionsExpandToTheirCommands := by
  refine ⟨parseHead_eq_some_iff.2 (by decide), parseHead_eq_some_iff.2 (by decide),
    parseHead_eq_some_iff.2 (by decide), fun s => ⟨_, execAll_eq _ s, rfl⟩, ?_⟩
  intro a b c d0 d1 d2 ha hb hc
  have hbytes : parseBytes [a, b, c] = .ok [d0, d1, d2] := by simp [parseBytes, ha, hb, hc]
  refine ⟨?_, ?_, rfl, fun ops bs hops => ?_⟩
  · simp [expand, withThreeBytes, hbytes, frame]
  · simp [expand, withThreeBytes, hbytes, residue]
  · simp [expand, hops, crcSeq]

end Sys2Proof.Machine
end

section
/-!
The statements about the checksum functions and FEED. The bit step is linear over GF(2) and takes
only 0 to 0 (`crcBit_xor`, `crcBit_eq_zero_iff`), which carries over to its iterates, to the byte
update and to sequences. As polynomials, a bit step is multiplication by x modulo P
(`crcPoly_dvd_bit`), so a valid frame is a multiple of P, and which errors are detected is read off
the set bits of the error.
-/

namespace Sys2Proof.Machine

/-! ### The words of FEED -/

/-- A word of FEED's row is the encoding of FEED of its low byte (R64, R92). -/
theorem decode_of_feedPattern {w : Word} (h : w &&& 0xFF00#16 = 0x0200#16) :
    decode w = .instr (.feed (dataOf w)) := by
  rw [and_upperMask, show 0x0200#16 = packFields ⟨0#4, 0x2#4, 0x00#8⟩ by decide,
    packFields_inj] at h
  obtain ⟨hrsv, hop, -⟩ := Fields.mk.inj h
  exact decode_eq_instr_iff.2 (eq_packFields_iff.2 (by rw [fieldsOf, hrsv, hop]; rfl))

/-! ### The bit step on natural numbers -/

/-- Without its top bit a 9-bit value is its low byte. -/
theorem toNat_lowByte_of_msb_false {x : BitVec 9} (h : x.msb = false) :
    (x.extractLsb' 0 8).toNat = x.toNat := by
  have hlt : x.toNat < 2 ^ 8 := BitVec.toNat_lt_of_msb_false h
  rw [← BitVec.setWidth_eq_extractLsb' (by decide), BitVec.toNat_setWidth, Nat.mod_eq_of_lt hlt]

/-- The shift into nine bits loses nothing: the bit tested is the ninth bit (R80). -/
theorem setWidth_shiftLeft_one (r : Byte) :
    ((r.setWidth 9) <<< 1).toNat = r.toNat <<< 1 ∧
      ((r.setWidth 9) <<< 1).msb = r.getLsbD 7 := by
  refine ⟨?_, by simp [BitVec.msb_eq_getLsbD_last]⟩
  have hr : r.toNat < 2 ^ 8 := r.isLt
  rw [BitVec.toNat_shiftLeft, BitVec.toNat_setWidth_of_le (by decide), Nat.shiftLeft_eq]
  omega

/-- R80's bit step on natural numbers. -/
theorem crcBit_toNat (r : Byte) :
    (crcBit r).toNat =
      if r.getLsbD 7 = true then (r.toNat <<< 1) ^^^ 0x131 else r.toNat <<< 1 := by
  obtain ⟨hnat, hmsb⟩ := setWidth_shiftLeft_one r
  simp only [crcBit]
  split
  next h7 =>
    rw [toNat_lowByte_of_msb_false (by rw [BitVec.msb_xor, hmsb, h7]; decide),
      BitVec.toNat_xor, hnat]
    rfl
  next h7 => rw [toNat_lowByte_of_msb_false (by rw [hmsb, Bool.eq_false_iff.2 h7]), hnat]

/-! ### Linearity over GF(2), and the kernel of the bit step -/

theorem crcByte_eq_iterate (r d : Byte) : crcByte r d = crcBit^[8] (r ^^^ d) := rfl

theorem crcBit_zero : crcBit 0x00#8 = 0x00#8 := by decide

/-- The shift is linear, and the polynomial enters once for each operand whose bit 7 is 1. -/
theorem crcBit_xor (a b : Byte) : crcBit (a ^^^ b) = crcBit a ^^^ crcBit b := by
  have hpoly : ∀ x y : Bool, (if (x ^^ y) = true then 0x31#8 else 0x00#8) =
      (if x = true then 0x31#8 else 0x00#8) ^^^ (if y = true then 0x31#8 else 0x00#8) := by decide
  rw [crcBit_eq, crcBit_eq, crcBit_eq, BitVec.shiftLeft_xor_distrib, BitVec.getLsbD_xor, hpoly]
  ac_rfl

theorem iterate_crcBit_zero (n : Nat) : crcBit^[n] 0x00#8 = 0x00#8 :=
  Function.iterate_fixed crcBit_zero n

theorem iterate_crcBit_distrib (n : Nat) (a b : Byte) :
    crcBit^[n] (a ^^^ b) = crcBit^[n] a ^^^ crcBit^[n] b := by
  induction n with
  | zero => rfl
  | succ n ih => simp only [Function.iterate_succ_apply', ih, crcBit_xor]

theorem getLsbD_shiftLeft_one_succ (v : Byte) {i : Nat} (hi : i < 7) :
    (v <<< 1).getLsbD (i + 1) = v.getLsbD i := by
  rw [BitVec.getLsbD_shiftLeft, decide_eq_true (Nat.succ_lt_succ hi)]
  simp

/-- The polynomial's bit 0 tells a step that XORed it in from one that did not. -/
theorem crcBit_eq_zero_iff (v : Byte) : crcBit v = 0x00#8 ↔ v = 0x00#8 := by
  refine ⟨fun h => ?_, fun h => h ▸ crcBit_zero⟩
  rw [crcBit_eq, BitVec.xor_eq_zero_iff] at h
  cases h7 : v.getLsbD 7 with
  | true =>
    rw [h7, if_pos rfl] at h
    simpa using congrArg (BitVec.getLsbD · 0) h
  | false =>
    rw [h7, if_neg Bool.false_ne_true] at h
    refine BitVec.eq_of_getLsbD_eq fun i hi => ?_
    obtain rfl | hi7 : i = 7 ∨ i < 7 := by omega
    · rw [h7, BitVec.getLsbD_zero]
    · rw [← getLsbD_shiftLeft_one_succ v hi7, h, BitVec.getLsbD_zero, BitVec.getLsbD_zero]

theorem crcBit_bijective : Function.Bijective crcBit := by
  refine Finite.injective_iff_bijective.1 fun a b h => ?_
  rw [← BitVec.xor_eq_zero_iff, ← crcBit_eq_zero_iff, crcBit_xor, h, BitVec.xor_self]

theorem crcByte_xor (r1 r2 d1 d2 : Byte) :
    crcByte (r1 ^^^ r2) (d1 ^^^ d2) = crcByte r1 d1 ^^^ crcByte r2 d2 := by
  simp only [crcByte_eq_iterate, ← iterate_crcBit_distrib]
  ac_rfl

theorem crcByte_self (r : Byte) : crcByte r r = 0x00#8 := by
  rw [crcByte_eq_iterate, BitVec.xor_self, iterate_crcBit_zero]

/-- XORing the byte into the register is a bijection, and so is each bit step (R89). -/
theorem crcByte_bijective (r : Byte) : Function.Bijective (crcByte r) := by
  have hxor : Function.Involutive (r ^^^ ·) := fun d => by simp
  exact (crcBit_bijective.iterate 8).comp hxor.bijective

/-- Over sequences of one length the update is linear in the start value and the bytes together. -/
theorem foldl_crcByte_zipWith_xor : ∀ (as bs : List Byte) (r1 r2 : Byte), as.length = bs.length →
    (List.zipWith (fun a b => a ^^^ b) as bs).foldl crcByte (r1 ^^^ r2) =
      as.foldl crcByte r1 ^^^ bs.foldl crcByte r2
  | [], [], _, _, _ => rfl
  | a :: as, b :: bs, r1, r2, h => by
    rw [List.zipWith_cons_cons, List.foldl_cons, crcByte_xor]
    exact foldl_crcByte_zipWith_xor as bs _ _ (Nat.succ.inj h)

theorem crc8_zipWith_xor {as bs : List Byte} (h : as.length = bs.length) :
    crc8 (List.zipWith (fun a b => a ^^^ b) as bs) = crc8 as ^^^ crc8 bs :=
  foldl_crcByte_zipWith_xor as bs 0x00#8 0x00#8 h

/-! ### The printed table and the source's frame check -/

/-- The table that the spec prints, entry by entry (R85). -/
theorem crcTable_eq : ∀ v : Byte, crcTable v = crcByte 0x00#8 v := by decide

theorem validFrame_iff (d0 d1 c : Byte) : validFrame d0 d1 c = true ↔ crc8 [d0, d1] = c :=
  beq_iff_eq

end Sys2Proof.Machine

namespace Sys2Proof

open Polynomial Machine

/-! ### Bits and polynomials over GF(2) -/

/-- The positions of the bits set in a value. -/
def setBits {n : Nat} (v : BitVec n) : Finset Nat := (Finset.range n).filter (v.getLsbD ·)

theorem polyOf_eq_sum (v : Byte) : polyOf v = ∑ i ∈ setBits v, (X : (ZMod 2)[X]) ^ i :=
  (Finset.sum_filter _ _).symm

theorem polyOf_coeff (v : Byte) (i : Nat) :
    (polyOf v).coeff i = if v.getLsbD i then 1 else 0 := by
  by_cases hi : i < 8
  · simp [polyOf_eq_sum, setBits, coeff_X_pow, hi]
  · simp [polyOf_eq_sum, setBits, coeff_X_pow, hi, BitVec.getLsbD_of_ge v i (Nat.not_lt.1 hi)]

theorem polyOf_injective : Function.Injective polyOf := by
  refine fun a b h => BitVec.eq_of_getLsbD_eq fun i _ => ?_
  have hi := congrArg (coeff · i) h
  simp only [polyOf_coeff] at hi
  cases ha : a.getLsbD i <;> cases hb : b.getLsbD i <;> simp_all

theorem polyOf_xor (a b : Byte) : polyOf (a ^^^ b) = polyOf a + polyOf b := by
  ext i
  rw [coeff_add, polyOf_coeff, polyOf_coeff, polyOf_coeff, BitVec.getLsbD_xor]
  cases a.getLsbD i <;> cases b.getLsbD i <;> decide

theorem polyOf_degree_lt (v : Byte) : (polyOf v).degree < 8 := by
  refine (degree_lt_iff_coeff_zero _ _).2 fun i hi => ?_
  simp [polyOf_coeff, BitVec.getLsbD_of_ge v i hi]

/-- The shift is multiplication by x without the power x^8. -/
theorem X_mul_polyOf (v : Byte) :
    X * polyOf v = polyOf (v <<< 1) + if v.getLsbD 7 then X ^ 8 else 0 := by
  simp only [polyOf, Finset.mul_sum, mul_ite, mul_zero, ← pow_succ']
  rw [Finset.sum_range_succ, Finset.sum_range_succ' _ 7]
  congr 1
  rw [show (v <<< 1).getLsbD 0 = false by simp, if_neg Bool.false_ne_true, add_zero]
  refine Finset.sum_congr rfl fun i hi => ?_
  rw [getLsbD_shiftLeft_one_succ v (Finset.mem_range.1 hi)]

theorem crcPoly_degree : crcPoly.degree = 8 := by
  unfold crcPoly; compute_degree!

theorem crcPoly_monic : crcPoly.Monic := by
  unfold crcPoly; monicity!

/-- The polynomial without its highest power is the byte 0x31 (R84). -/
theorem crcPoly_eq : crcPoly = X ^ 8 + polyOf 0x31#8 := by
  have hlow : polyOf 0x31#8 = 1 + X ^ 4 + X ^ 5 := by simp [polyOf, Finset.sum_range_succ]
  rw [crcPoly, hlow]
  ring

/-- One bit step is multiplication by x, modulo P (R86). -/
theorem crcPoly_dvd_bit (r : Byte) : crcPoly ∣ X * polyOf r - polyOf (crcBit r) := by
  rw [X_mul_polyOf, crcBit_eq, polyOf_xor, add_sub_add_left_eq_sub]
  split
  · rw [CharTwo.sub_eq_add, ← crcPoly_eq]
  · simp [polyOf]

/-- `n` bit steps are multiplication by x^n, modulo P. -/
theorem crcPoly_dvd_iterate (v : Byte) (n : Nat) :
    crcPoly ∣ X ^ n * polyOf v - polyOf (crcBit^[n] v) := by
  induction n with
  | zero => simp
  | succ n ih =>
    rw [Function.iterate_succ_apply']
    convert (ih.mul_left X).add (crcPoly_dvd_bit (crcBit^[n] v)) using 1
    ring

theorem crcPoly_dvd_byte (r d : Byte) :
    crcPoly ∣ X ^ 8 * (polyOf r + polyOf d) - polyOf (crcByte r d) :=
  polyOf_xor r d ▸ crcPoly_dvd_iterate (r ^^^ d) 8

theorem messagePoly_append_one (bs : List Byte) (b : Byte) :
    messagePoly (bs ++ [b]) = messagePoly bs * X ^ 8 + polyOf b := by
  simp [messagePoly]

theorem crcPoly_dvd_message (bs : List Byte) :
    crcPoly ∣ messagePoly bs * X ^ 8 - polyOf (crc8 bs) := by
  induction bs using List.reverseRecOn with
  | nil => simp [messagePoly, crc8_nil, polyOf]
  | append_singleton bs b ih =>
    rw [messagePoly_append_one, crc8_append_one]
    convert (ih.mul_left (X ^ 8)).add (crcPoly_dvd_byte (crc8 bs) b) using 1
    ring

/-- A byte that agrees with `p` modulo P is the remainder of `p`. -/
theorem polyOf_eq_modByMonic {v : Byte} {p : (ZMod 2)[X]} (h : crcPoly ∣ p - polyOf v) :
    polyOf v = p %ₘ crcPoly := by
  rw [modByMonic_eq_of_dvd_sub crcPoly_monic h, eq_comm, modByMonic_eq_self_iff crcPoly_monic,
    crcPoly_degree]
  exact polyOf_degree_lt v

/-! ### Frames as polynomials -/

/-- The bits of a concatenation are those of its low part, and those of its high part moved up. -/
theorem sum_setBits_append {M : Type*} [AddCommMonoid M] {m n : Nat} (x : BitVec m) (y : BitVec n)
    (f : Nat → M) :
    ∑ i ∈ setBits (x ++ y), f i = ∑ i ∈ setBits y, f i + ∑ i ∈ setBits x, f (n + i) := by
  simp only [setBits, Finset.sum_filter, BitVec.getLsbD_append]
  rw [Nat.add_comm m n, Finset.sum_range_add]
  congr 1
  · exact Finset.sum_congr rfl fun i hi => by rw [if_pos (Finset.mem_range.1 hi)]
  · exact Finset.sum_congr rfl fun i _ => by
      rw [if_neg (Nat.not_lt.2 (Nat.le_add_right n i)), Nat.add_sub_cancel_left]

/-- The positions of the bits set in a frame, bit 0 of the checksum byte first. -/
def frameBits (d0 d1 c : Byte) : Finset Nat := setBits (d0 ++ d1 ++ c)

theorem messagePoly_frame (d0 d1 c : Byte) :
    messagePoly [d0, d1, c] = ∑ i ∈ frameBits d0 d1 c, X ^ i := by
  simp only [messagePoly, List.foldl, polyOf_eq_sum, frameBits, sum_setBits_append, pow_add,
    ← Finset.mul_sum]
  ring

theorem card_setBits (v : Byte) :
    (setBits v).card = ((List.range 8).filter (fun i => v.getLsbD i)).length := by
  simp [setBits, Finset.card_def, Finset.filter, Finset.range, Multiset.range]

theorem frameWeight_eq_card (d0 d1 c : Byte) : frameWeight d0 d1 c = (frameBits d0 d1 c).card := by
  simp only [frameWeight, ← card_setBits, frameBits, Finset.card_eq_sum_ones, sum_setBits_append]
  omega

theorem frameBits_lt {d0 d1 c : Byte} {i : Nat} (h : i ∈ frameBits d0 d1 c) : i < 24 :=
  Finset.mem_range.1 (Finset.mem_filter.1 h).1

theorem eq_zero_of_setBits_eq_empty {n : Nat} {v : BitVec n} (h : setBits v = ∅) : v = 0#n := by
  refine BitVec.eq_of_getLsbD_eq fun i hi => ?_
  simpa using Finset.filter_eq_empty_iff.1 h (Finset.mem_range.2 hi)

theorem frameWeight_eq_zero {d0 d1 c : Byte} (h : frameWeight d0 d1 c = 0) :
    d0 = 0#8 ∧ d1 = 0#8 ∧ c = 0#8 := by
  simp only [frameWeight, ← card_setBits, Nat.add_eq_zero_iff, Finset.card_eq_zero] at h
  obtain ⟨⟨h0, h1⟩, hc⟩ := h
  exact ⟨eq_zero_of_setBits_eq_empty h0, eq_zero_of_setBits_eq_empty h1,
    eq_zero_of_setBits_eq_empty hc⟩

/-- A valid frame is a multiple of P: its checksum byte is the remainder of its payload (R86). -/
theorem crcPoly_dvd_of_validFrame {d0 d1 c : Byte} (h : validFrame d0 d1 c = true) :
    crcPoly ∣ ∑ i ∈ frameBits d0 d1 c, X ^ i := by
  have hc : crc8 [d0, d1] = c := (validFrame_iff d0 d1 c).1 h
  have hframe : messagePoly [d0, d1, c] = messagePoly [d0, d1] * X ^ 8 + polyOf c :=
    messagePoly_append_one [d0, d1] c
  rw [← messagePoly_frame, hframe, ← hc, ← CharTwo.sub_eq_add]
  exact crcPoly_dvd_message [d0, d1]

/-- P has the root 1, so a valid frame has an even number of bits set. -/
theorem even_frameWeight {d0 d1 c : Byte} (h : validFrame d0 d1 c = true) :
    Even (frameWeight d0 d1 c) := by
  have hroot : crcPoly.eval 1 = 0 := by
    simp only [crcPoly, eval_add, eval_pow, eval_X, eval_one, one_pow]
    decide
  have heval := eval_eq_zero_of_dvd_of_eval_eq_zero (crcPoly_dvd_of_validFrame h) hroot
  rw [eval_finsetSum] at heval
  simp only [eval_pow, eval_X, one_pow, Finset.sum_const, nsmul_one] at heval
  rw [frameWeight_eq_card]
  exact (ZMod.natCast_eq_zero_iff_even).1 heval

/-- The remainders of the first 24 powers of x are distinct. -/
theorem iterate_crcBit_one_injOn : ∀ i < 24, ∀ j < 24,
    crcBit^[i] 0x01#8 = crcBit^[j] 0x01#8 → i = j := by decide

theorem polyOf_one : polyOf 0x01#8 = 1 := by
  simp [polyOf]

/-- No two bits of a frame have the same remainder, so two bits alone are no multiple of P. -/
theorem crcPoly_not_dvd_pair {i j : Nat} (hi : i < 24) (hj : j < 24) (hne : i ≠ j) :
    ¬ crcPoly ∣ X ^ i + X ^ j := by
  intro h
  have hrem (n : Nat) : polyOf (crcBit^[n] 0x01#8) = X ^ n %ₘ crcPoly :=
    polyOf_eq_modByMonic (by simpa [polyOf_one] using crcPoly_dvd_iterate 0x01#8 n)
  refine hne (iterate_crcBit_one_injOn i hi j hj (polyOf_injective ?_))
  rw [hrem, hrem, modByMonic_eq_of_dvd_sub crcPoly_monic (by rwa [CharTwo.sub_eq_add])]

/-- The number of bits set is even, and neither 0 nor 2 (R91). -/
theorem validFrame_weight_ge_four {d0 d1 c : Byte} (h : validFrame d0 d1 c = true)
    (hne : ¬(d0 = 0#8 ∧ d1 = 0#8 ∧ c = 0#8)) : 4 ≤ frameWeight d0 d1 c := by
  have heven := even_frameWeight h
  have hzero : frameWeight d0 d1 c ≠ 0 := fun h0 => hne (frameWeight_eq_zero h0)
  have htwo : frameWeight d0 d1 c ≠ 2 := by
    rw [frameWeight_eq_card, Ne, Finset.card_eq_two]
    rintro ⟨i, j, hij, hbits⟩
    have hdvd := crcPoly_dvd_of_validFrame h
    rw [hbits, Finset.sum_pair hij] at hdvd
    have hlt : ∀ k ∈ ({i, j} : Finset Nat), k < 24 := hbits ▸ fun k => frameBits_lt
    exact crcPoly_not_dvd_pair (hlt i (by simp)) (hlt j (by simp)) hij hdvd
  obtain ⟨k, hk⟩ := heven
  omega

end Sys2Proof

namespace Sys2Proof.Machine

/-! ### Errors in a frame -/

/-- The error between two valid frames is itself a valid frame (R87). -/
theorem validFrame_of_xor {d0 d1 c e0 e1 ec : Byte} (h : validFrame d0 d1 c = true)
    (he : validFrame (d0 ^^^ e0) (d1 ^^^ e1) (c ^^^ ec) = true) : validFrame e0 e1 ec = true := by
  rw [validFrame_iff] at h he ⊢
  have hlin : crc8 [d0 ^^^ e0, d1 ^^^ e1] = crc8 [d0, d1] ^^^ crc8 [e0, e1] :=
    crc8_zipWith_xor (as := [d0, d1]) (bs := [e0, e1]) rfl
  rwa [he, h, BitVec.xor_right_inj, eq_comm] at hlin

/-- An error of 1 to 3 bits, or of an odd number of bits, is no valid frame, so it takes a valid
frame to an invalid one (R91). -/
theorem validFrame_xor_eq_false {d0 d1 c e0 e1 ec : Byte} (h : validFrame d0 d1 c = true)
    (hw : 1 ≤ frameWeight e0 e1 ec ∧ frameWeight e0 e1 ec ≤ 3 ∨ frameWeight e0 e1 ec % 2 = 1) :
    validFrame (d0 ^^^ e0) (d1 ^^^ e1) (c ^^^ ec) = false := by
  refine Bool.eq_false_iff.2 fun hbad => ?_
  have he : validFrame e0 e1 ec = true := validFrame_of_xor h hbad
  obtain ⟨hlow, hhigh⟩ | hodd := hw
  · have hne : ¬(e0 = 0#8 ∧ e1 = 0#8 ∧ ec = 0#8) := by
      rintro ⟨rfl, rfl, rfl⟩
      exact absurd hlow (by decide)
    exact absurd (validFrame_weight_ge_four he hne) (Nat.not_le.2 (Nat.lt_succ_of_le hhigh))
  · exact absurd (even_frameWeight he) (Nat.not_even_iff.2 hodd)

/-- One bit of a payload is one bit of its frame. -/
theorem frameWeight_payloadBit : ∀ k < 16,
    frameWeight ((1#16 <<< k).extractLsb' 8 8) ((1#16 <<< k).extractLsb' 0 8) 0#8 = 1 := by decide

/-! ### Tier 2 -/

/-- Settles O22: the words by the encoding of FEED, and the effect by FEED's registers. -/
theorem feedAbsorbsOneByte : Obligations.FeedAbsorbsOneByte :=
  ⟨fun _ => decode_of_feedPattern,
    fun s d => ⟨countUp s.regs.cnt, countUp_val s.regs.cnt, exec_eq (.feed d) s⟩⟩

/-- Settles O37: register and byte enter through their XOR, and the table is the update from 0x00. -/
theorem byteUpdateIsThePrintedTable : Obligations.ByteUpdateIsThePrintedTable :=
  fun r d => ⟨by rw [crcTable_eq, crcByte_eq_of_xor], crcTable_eq d⟩

/-- Settles O39. -/
theorem checksumIsLinear : Obligations.ChecksumIsLinear :=
  ⟨crcByte_xor, fun _ _ => crc8_zipWith_xor⟩

/-- Settles O40, by induction on the number of bytes: each one meets the register it leaves. -/
theorem checksumOfZeroBytesIsZero : Obligations.ChecksumOfZeroBytesIsZero := by
  intro n
  induction n with
  | zero => exact crc8_nil
  | succ n ih => rw [List.replicate_succ', crc8_append_one, ih, crcByte_self]

/-- Settles O41. -/
theorem byteUpdateIsABijection : Obligations.ByteUpdateIsABijection := crcByte_bijective

/-- Settles O42: the last byte is XORed into its own value. -/
theorem residueOfASequenceWithItsChecksumIsZero :
    Obligations.ResidueOfASequenceWithItsChecksumIsZero :=
  fun bs => by rw [crc8_append_one, crcByte_self]

/-- Settles O43: each result agrees with its polynomial modulo P and has degree below 8. -/
theorem checksumIsThePolynomialRemainder : Obligations.ChecksumIsThePolynomialRemainder :=
  ⟨fun r => polyOf_eq_modByMonic (crcPoly_dvd_bit r),
    fun r d => polyOf_eq_modByMonic (crcPoly_dvd_byte r d),
    fun bs => polyOf_eq_modByMonic (crcPoly_dvd_message bs)⟩

/-- Settles O44: a payload bit whose change kept the checksum would be an undetected error of one
bit. -/
theorem smallAndOddErrorsAreDetected : Obligations.SmallAndOddErrorsAreDetected := by
  refine ⟨fun p k hk hsame => ?_, fun _ _ _ => validFrame_weight_ge_four,
    fun _ _ _ _ _ _ => validFrame_xor_eq_false⟩
  have hbad := validFrame_xor_eq_false
    ((validFrame_iff (p.extractLsb' 8 8) (p.extractLsb' 0 8) _).2 rfl)
    (.inr (congrArg (· % 2) (frameWeight_payloadBit k hk)))
  rw [BitVec.xor_zero, ← BitVec.extractLsb'_xor, ← BitVec.extractLsb'_xor,
    (validFrame_iff _ _ _).2 hsame] at hbad
  exact Bool.noConfusion hbad

/-! ### Tier 1 -/

/-- Settles O35. -/
theorem bitStepShiftsAndXorsThePolynomial : Obligations.BitStepShiftsAndXorsThePolynomial :=
  fun r => ⟨crcBit_toNat r, crcBit_eq r⟩

/-- Settles O36. -/
theorem checksumTakesTheBytesInOrder : Obligations.ChecksumTakesTheBytesInOrder :=
  ⟨crcByte_eq_iterate, crc8_nil, crc8_append_one⟩

end Sys2Proof.Machine
end

section
/-!
The statements about CHECK and about the command sequences that end in one. INIT and FEEDs leave the
registers of the history of the bytes fed (`History.regs`), and a CHECK those of that history with
its byte checked (`execAll_crcSeq_check`), so what a sequence answers is read off its history.
-/

namespace Sys2Proof.Machine

/-! ### CHECK alone -/

/-- A word of CHECK's row is CHECK of its low byte (R64, R100). -/
theorem decode_of_checkPattern {w : Word} (h : w &&& 0xFF00#16 = 0x0300#16) :
    decode w = .instr (.check (dataOf w)) := by
  obtain ⟨i, hd, hm⟩ := (selects_iff_decode (r := ⟨.check, 0x0300#16, 0xFF00#16⟩)
    (by decide) w).1 (beq_iff_eq.2 h)
  cases i with
  | nop | init | feed d => cases hm
  | check c => rw [hd, show dataOf w = c from congrArg Fields.data (fieldsOf_of_instr hd)]

theorem matchFlag_eq_decide (crc c : Byte) : matchFlag crc c = decide (crc = c) := by
  rw [Bool.eq_iff_iff, matchFlag_iff, decide_eq_true_iff]

theorem validFlag_matchFlag_eq_decide (crc c : Byte) (cnt : Fin 4) :
    validFlag (matchFlag crc c) cnt = decide (crc = c ∧ cnt = 2) := by
  rw [Bool.eq_iff_iff, validFlag_iff, matchFlag_iff, decide_eq_true_iff]

/-- A CHECK reads no flag, and the flags it writes are all that an earlier CHECK wrote (R104). -/
theorem Regs.afterInstr_check_check (r : Regs) (a b : Byte) :
    (r.afterInstr (.check a)).afterInstr (.check b) = r.afterInstr (.check b) := rfl

/-! ### What keeps a verdict -/

theorem Regs.afterWord_keeps_verdict {w : Word}
    (h : decode w = .instr .nop ∨ legalWord w = false) (r : Regs) :
    (r.afterWord w).done = r.done ∧ (r.afterWord w).matched = r.matched ∧
      (r.afterWord w).valid = r.valid := by
  rcases h with hd | hw
  · rw [Regs.afterWord_of_instr hd]
    exact ⟨rfl, rfl, rfl⟩
  · obtain ⟨why, hd⟩ := legalWord_eq_false_iff.1 hw
    rw [Regs.afterWord_of_illegal hd]
    exact ⟨rfl, rfl, rfl⟩

/-! ### Sequences that end in a CHECK -/

/-- INIT starts the history of no byte fed, with `ILL` as it was (R121). -/
theorem History.regs_init (r : Regs) : (History.mk [] none r.ill).regs = r.afterInstr .init := rfl

theorem History.regs_foldl_feed (bs fed : List Byte) (ill : Bool) :
    (bs.map Instr.feed).foldl Regs.afterInstr (History.mk fed none ill).regs =
      (History.mk (fed ++ bs) none ill).regs := by
  induction bs generalizing fed with
  | nil => rw [List.append_nil]; rfl
  | cons b bs ih =>
    rw [List.map_cons, List.foldl_cons, ← History.regs_feed ⟨fed, none, ill⟩, ih,
      List.append_assoc, List.singleton_append]

/-- FEEDs and a CHECK, where no byte was fed before. -/
theorem execAll_feeds_check {s : State} {ill : Bool} (hs : s.regs = (History.mk [] none ill).regs)
    (bs : List Byte) (c : Byte) : execAll (bs.map .feed ++ [.check c]) s =
      .next (s.setRegs (History.mk bs (some c) ill).regs) := by
  rw [execAll_eq, hs, List.foldl_append, History.regs_foldl_feed, List.nil_append]
  exact congrArg (fun r => Host.Outcome.next (s.setRegs r))
    (History.regs_check ⟨bs, none, ill⟩ c).symm

/-- INIT, FEEDs and a CHECK leave the registers of the bytes fed and the byte checked, whatever the
block held before. -/
theorem execAll_crcSeq_check (s : State) (bs : List Byte) (c : Byte) :
    execAll (crcSeq bs ++ [.check c]) s =
      .next (s.setRegs (History.mk bs (some c) s.regs.ill).regs) :=
  execAll_feeds_check (s := s.setRegs (s.regs.afterInstr .init)) (History.regs_init s.regs).symm
    bs c

/-! ### Reading the verdict of a history -/

theorem History.regs_matched_iff (bs : List Byte) (c : Byte) (ill : Bool) :
    (History.mk bs (some c) ill).regs.matched = true ↔ crc8 bs = c := by
  show (some c == some (crc8 bs)) = true ↔ crc8 bs = c
  rw [beq_iff_eq, Option.some_inj, eq_comm]

theorem History.regs_checked_valid_iff (bs : List Byte) (c : Byte) (ill : Bool) :
    (History.mk bs (some c) ill).regs.valid = true ↔ crc8 bs = c ∧ bs.length = 2 := by
  rw [History.regs_valid_iff, Option.some_inj, eq_comm]

/-- R101's clauses on the registers of two bytes fed and a byte checked. -/
theorem History.regs_of_frame (d0 d1 c : Byte) (ill : Bool) :
    ((History.mk [d0, d1] (some c) ill).regs.valid = true ↔ crc8 [d0, d1] = c) ∧
      (History.mk [d0, d1] (some c) ill).regs.code = d0 ++ d1 ∧
      (History.mk [d0, d1] (some c) ill).regs.matched =
        (History.mk [d0, d1] (some c) ill).regs.valid ∧
      (History.mk [d0, d1] (some c) ill).regs.cnt = 2 := by
  have hvalid : (History.mk [d0, d1] (some c) ill).regs.valid = true ↔ crc8 [d0, d1] = c :=
    (History.regs_checked_valid_iff _ c ill).trans (and_iff_left rfl)
  exact ⟨hvalid, rfl, Bool.eq_iff_iff.2 ((History.regs_matched_iff _ c ill).trans hvalid.symm), rfl⟩

/-- The update answers 0 for one byte alone, the register's own value (R89, R90). -/
theorem crcByte_eq_zero_iff {r d : Byte} : crcByte r d = 0x00#8 ↔ r = d := by
  rw [← crcByte_self r, (crcByte_bijective r).injective.eq_iff, eq_comm]

/-! ### Tier 2 -/

/-- Settles O23: the words by CHECK's row, and the effect by CHECK's registers. -/
theorem checkRecordsTheVerdict : Obligations.CheckRecordsTheVerdict := by
  refine ⟨fun _ => decode_of_checkPattern, fun s c => ?_⟩
  rw [← validFlag_matchFlag_eq_decide, ← matchFlag_eq_decide]
  exact exec_eq (.check c) s

/-- Settles O26: the second part by induction over the events, each one of which keeps the flags. -/
theorem laterCheckReplacesTheVerdict : Obligations.LaterCheckReplacesTheVerdict := by
  refine ⟨fun s a b => ⟨_, execAll_eq _ s, ?_⟩, fun s evs hevs => ⟨_, runEvents_eq evs s, ?_⟩⟩
  · rw [exec_eq, ← Regs.afterInstr_check_check _ a]
    rfl
  · refine List.foldlRecOn evs Regs.afterEvent (motive := fun r => r.done = s.regs.done ∧
      r.matched = s.regs.matched ∧ r.valid = s.regs.valid) ⟨rfl, rfl, rfl⟩ ?_
    rintro r ⟨hdone, hmatched, hvalid⟩ ev hev
    obtain ⟨w, rfl, hw⟩ := hevs ev hev
    obtain ⟨hdone', hmatched', hvalid'⟩ := Regs.afterWord_keeps_verdict hw r
    exact ⟨hdone'.trans hdone, hmatched'.trans hmatched, hvalid'.trans hvalid⟩

/-- Settles O45: FRAME is INIT, two FEEDs and a CHECK, and a reset stands for the INIT. -/
theorem frameIsValidExactlyWhenItsChecksumAgrees :
    Obligations.FrameIsValidExactlyWhenItsChecksumAgrees := fun s d0 d1 c =>
  ⟨⟨_, execAll_crcSeq_check s [d0, d1] c, History.regs_of_frame d0 d1 c s.regs.ill⟩,
    ⟨_, execAll_feeds_check (s := resetBlock s) (ill := false) rfl [d0, d1] c,
      History.regs_of_frame d0 d1 c false⟩⟩

/-- Settles O46: the third byte fed takes the register to 0 exactly where it is the checksum of the
first two. -/
theorem residueFormGivesTheChecksumVerdictOnly :
    Obligations.ResidueFormGivesTheChecksumVerdictOnly := by
  intro s d0 d1 c
  have hresidue : crc8 [d0, d1, c] = 0x00#8 ↔ crc8 [d0, d1] = c := by
    rw [show crc8 [d0, d1, c] = _ from crc8_append_one [d0, d1] c, crcByte_eq_zero_iff]
  refine ⟨_, execAll_crcSeq_check s [d0, d1, c] 0x00#8,
    (History.regs_matched_iff _ _ _).trans hresidue, ?_, rfl, rfl⟩
  rw [← Bool.not_eq_true, State.setRegs_regs, History.regs_checked_valid_iff]
  rintro ⟨-, hlength⟩
  cases hlength

/-- Settles O47. -/
theorem checkComparesSequencesOfAnyLength : Obligations.CheckComparesSequencesOfAnyLength :=
  fun s bs c => ⟨_, execAll_crcSeq_check s bs c, History.regs_matched_iff bs c s.regs.ill,
    History.regs_checked_valid_iff bs c s.regs.ill, rfl⟩

end Sys2Proof.Machine
end

section
/-!
The statements about NOP, INIT and the illegal words. NOP and INIT have one word each. `ILL` is
written but never read: a word does the same to the other registers whatever `ILL` holds
(`Regs.afterWord_withIll`), so an illegal word can be left out of a run, and INIT is a reset that
keeps `ILL`.
-/

namespace Sys2Proof.Machine

/-! ### The words of NOP and INIT -/

/-- A row of the full mask holds one word, its pattern (R64). -/
theorem eq_of_fullMask {w pattern : Word} (h : w &&& 0xFFFF#16 = pattern) : w = pattern :=
  (and_fullMask w).symm.trans h

/-- A word of NOP's or INIT's `OP` with `DATA` not 0 is illegal (R65, R120, R121). -/
theorem decode_append_of_data_ne {hi d : Byte} (hhi : hi.toNat < 2) (hd : d ≠ 0x00#8) :
    decode (hi ++ d) = .illegal (hi ++ d) .unexpectedData := by
  obtain ⟨hrsv, hop, hdata⟩ := fields_toNat (hi ++ d)
  rw [code_toNat] at hrsv hop hdata
  have := d.isLt
  refine (decode_eq_unexpectedData_iff _).2 ⟨?_, by omega, ?_⟩
  · rw [← BitVec.toNat_inj, hrsv, BitVec.toNat_ofNat]
    omega
  · rw [ne_eq, ← BitVec.toNat_inj] at hd ⊢
    omega

/-- A word that matches none of R64's rows decodes to the illegal word itself (R65, R66). -/
theorem decode_illegal_of_no_row {w : Word} (h : ∀ r ∈ rows, w &&& r.mask ≠ r.pattern) :
    ∃ why, decode w = .illegal w why := by
  refine legalWord_eq_false_iff.1 (List.any_eq_false.2 fun r hr hsel => ?_)
  exact h r hr (beq_iff_eq.1 hsel)

/-! ### `ILL` beside the other registers -/

/-- The registers with another value of `ILL`. -/
def Regs.withIll (r : Regs) (b : Bool) : Regs := { r with ill := b }

theorem Regs.withIll_ill_self (r : Regs) : r.withIll r.ill = r := rfl

/-- INIT is a reset that keeps `ILL` (R122). -/
theorem Regs.afterInstr_init (r : Regs) : r.afterInstr .init = Regs.reset.withIll r.ill := rfl

/-- `raise IllegalCommand` writes `ILL` alone (R141). -/
theorem Regs.raiseIllegalCommand_withIll (r : Regs) (b : Bool) :
    (r.withIll b).raiseIllegalCommand = r.withIll true := rfl

/-- No command reads or writes `ILL`. -/
theorem Regs.afterInstr_withIll (r : Regs) (b : Bool) (i : Instr) :
    (r.withIll b).afterInstr i = (r.afterInstr i).withIll b := by
  cases i <;> rfl

theorem Regs.afterWord_withIll (r : Regs) (b : Bool) (w : Word) :
    (r.withIll b).afterWord w = (r.afterWord w).withIll (b || !legalWord w) := by
  cases h : decode w with
  | instr i =>
    simp [Regs.afterWord_of_instr h, legalWord_of_instr h, Regs.afterInstr_withIll]
  | illegal v why =>
    simp only [Regs.afterWord_of_illegal h, legalWord_of_illegal h, Bool.not_false, Bool.or_true]
    rfl

/-- An event does the same to the other registers whatever `ILL` holds. -/
theorem Regs.afterEvent_withIll (r : Regs) (b : Bool) (ev : Event) :
    ∃ b', (r.withIll b).afterEvent ev = (r.afterEvent ev).withIll b' := by
  cases ev with
  | reset => exact ⟨false, rfl⟩
  | word w => exact ⟨_, r.afterWord_withIll b w⟩

/-- An illegal word does nothing to the other registers (R123). -/
theorem Regs.afterWord_withIll_of_illegal {w : Word} (h : legalWord w = false) (r : Regs)
    (b : Bool) : (r.withIll b).afterWord w = r.withIll true := by
  obtain ⟨why, hdec⟩ := legalWord_eq_false_iff.1 h
  rw [Regs.afterWord_of_illegal hdec, Regs.raiseIllegalCommand_withIll]

/-- A filter that takes out nothing but illegal words changes no register but `ILL`, whatever `ILL`
holds at the start. -/
theorem Regs.foldl_afterEvent_filter {p : Event → Bool}
    (hp : ∀ ev, p ev = false → ∃ w, ev = .word w ∧ legalWord w = false) (evs : List Event)
    (r : Regs) (b : Bool) : ∃ b', evs.foldl Regs.afterEvent (r.withIll b) =
      ((evs.filter p).foldl Regs.afterEvent r).withIll b' := by
  induction evs generalizing r b with
  | nil => exact ⟨b, rfl⟩
  | cons ev evs ih =>
    cases hev : p ev with
    | true =>
      obtain ⟨b', h⟩ := r.afterEvent_withIll b ev
      rw [List.filter_cons_of_pos hev, List.foldl_cons, List.foldl_cons, h]
      exact ih _ b'
    | false =>
      obtain ⟨w, rfl, hw⟩ := hp ev hev
      have hskip : (r.withIll b).afterEvent (.word w) = r.withIll true :=
        Regs.afterWord_withIll_of_illegal hw r b
      rw [List.filter_cons_of_neg (by simp [hev]), List.foldl_cons, hskip]
      exact ih r true

/-- So the run and the filtered run agree but for `ILL`. -/
theorem Regs.foldl_afterEvent_filter_agree {p : Event → Bool}
    (hp : ∀ ev, p ev = false → ∃ w, ev = .word w ∧ legalWord w = false) (evs : List Event)
    (r : Regs) : (evs.foldl Regs.afterEvent r).withIll
      ((evs.filter p).foldl Regs.afterEvent r).ill = (evs.filter p).foldl Regs.afterEvent r := by
  obtain ⟨b, h⟩ := Regs.foldl_afterEvent_filter hp evs r r.ill
  rw [Regs.withIll_ill_self] at h
  rw [h]
  rfl

/-- Over a run of words `ILL` collects the illegal ones (R30). -/
theorem Regs.foldl_afterEvent_words_ill (ws : List Word) (r : Regs) :
    ((ws.map Event.word).foldl Regs.afterEvent r).ill =
      (r.ill || ws.any (fun w => !legalWord w)) := by
  rw [List.foldl_map]
  exact Regs.foldl_afterWord_ill ws r

/-! ### Tier 2 -/

/-- Settles O20: NOP's one word, and the words of its `OP` with `DATA` not 0. -/
theorem nopWritesNoRegister : Obligations.NopWritesNoRegister :=
  ⟨fun _ hw => eq_of_fullMask hw ▸ decode_word_nop,
    fun _ => decode_append_of_data_ne (by decide), fun s => exec_eq .nop s⟩

/-- Settles O21: INIT's one word, the words of its `OP` with `DATA` not 0, and INIT's registers. -/
theorem initStartsANewComputation : Obligations.InitStartsANewComputation :=
  ⟨fun _ hw => eq_of_fullMask hw ▸ decode_word_init,
    fun _ => decode_append_of_data_ne (by decide), fun s => exec_eq .init s⟩

/-- Settles O24: an accepting edge leaves the registers of `raise IllegalCommand`, and no word takes
`ILL` back. -/
theorem illegalWordOnlySetsIll : Obligations.IllegalWordOnlySetsIll := by
  refine ⟨fun s e rest hi hb ha hrows => ?_, fun s ws hill => ⟨_, runEvents_eq _ s, ?_⟩⟩
  · obtain ⟨why, hdec⟩ := decode_illegal_of_no_row hrows
    rw [step_cons_of_kept hi hb, Regs.afterEdge_of_accepts ha, heldAfter_of_accepts ha,
      Regs.afterWord_of_illegal hdec]
    rfl
  · rw [State.setRegs_regs, Regs.foldl_afterEvent_words_ill, hill, Bool.true_or]

/-- Settles O27: after a reset and legal words `ILL` is 0, so INIT leaves the reset registers. -/
theorem initAndResetDifferInIllOnly : Obligations.InitAndResetDifferInIllOnly := by
  refine ⟨fun s => ⟨_, exec_eq .init s, rfl, rfl⟩, fun s ws hws => ?_⟩
  have hill : ((ws.map Event.word).foldl Regs.afterEvent Regs.reset).ill = false := by
    rw [Regs.foldl_afterEvent_words_ill]
    simpa using hws
  refine ⟨_, _, runEvents_eq _ s, exec_eq .init _, congrArg outputsOf ?_⟩
  calc Regs.reset = Regs.reset.withIll false := rfl
    _ = ((ws.map Event.word).foldl Regs.afterEvent Regs.reset).afterInstr .init := by
      rw [Regs.afterInstr_init, hill]

/-- Settles O33: the filter takes out nothing but illegal words. -/
theorem illegalWordsLeaveTheComputationAlone :
    Obligations.IllegalWordsLeaveTheComputationAlone := by
  intro s evs
  refine ⟨_, _, runEvents_eq evs s, runEvents_eq _ s,
    Regs.foldl_afterEvent_filter_agree (fun ev hev => ?_) evs s.regs⟩
  cases ev with
  | reset => cases hev
  | word w => exact ⟨w, rfl, hev⟩

end Sys2Proof.Machine
end

section
/-!
The statements about the exceptional outcomes: what wins at an edge, what stops the machine, what a
CHECK reports, and what a run observes. The three verdict flags are the low bits of `STATUS`
(`Regs.status_lowBits`), so a verdict has one code (`Regs.status_of_verdict`), and a CHECK's verdict
is read off `CRC` and `CNT` once (`Regs.checkVerdict`).
-/

namespace Sys2Proof.Machine

/-! ### Reset edges and accepting edges -/

/-- Under reset the host need not go on holding a word (R172). -/
theorem heldAfter_of_rst {e : EdgeIn} (hr : e.rst = true) : heldAfter e = none := by
  simp [heldAfter, hr]

/-- The step of an edge that accepts a word is the word's whole effect (R42, R50). -/
theorem step_cons_of_accepts {s : State} {e : EdgeIn} {rest : List EdgeIn}
    (hi : s.inputs = e :: rest) (hb : brokenHold s.held e = none) (ha : accepts e = true) :
    step s = acceptWord e.cmd { s with held := none, inputs := rest } := by
  rw [step_cons_of_kept hi hb, Regs.afterEdge_of_accepts ha, heldAfter_of_accepts ha, acceptWord_eq]
  rfl

/-! ### Verdicts and their codes -/

/-- `VALID`, `MATCH` and `DONE` are STATUS[2:0] (R25). -/
theorem Regs.status_lowBits (r : Regs) : r.status.extractLsb' 0 3 =
    BitVec.ofBool r.valid ++ BitVec.ofBool r.matched ++ BitVec.ofBool r.done := by
  obtain ⟨hdone, hmatched, hvalid, -⟩ := r.status_flags
  refine BitVec.eq_of_getLsbD_eq fun i hi => ?_
  simp only [BitVec.getLsbD_extractLsb', BitVec.getLsbD_append, BitVec.getLsbD_ofBool]
  interval_cases i
  · simpa using hdone
  · simpa using hmatched
  · simpa using hvalid

/-- The code of a verdict in STATUS[2:0] (R102). -/
def Verdict.code : Verdict → BitVec 3
  | .noVerdict => 0b000#3
  | .validFrame => 0b111#3
  | .checksumMismatch => 0b001#3
  | .lengthMismatch => 0b011#3

theorem Regs.status_of_verdict {r : Regs} {v : Verdict} (h : r.verdict = some v) :
    r.status.extractLsb' 0 3 = v.code := by
  rw [Regs.status_lowBits]
  unfold Regs.verdict at h
  split at h
  case h_5 => cases h
  all_goals
    rename_i hdone hmatched hvalid
    cases h
    rw [hdone, hmatched, hvalid]
    rfl

/-- CHECK writes the three verdict flags, by what it compares (R100). -/
theorem Regs.afterInstr_check (r : Regs) (c : Byte) : r.afterInstr (.check c) =
    { r with done := true, matched := decide (r.crc = c),
             valid := decide (r.crc = c ∧ r.cnt = 2) } := by
  rw [← validFlag_matchFlag_eq_decide, ← matchFlag_eq_decide]
  rfl

/-- The verdict that a CHECK of `c` gives: the checksum goes first, and only where it agrees does
the number of bytes count (R142, R143, R146). -/
def Regs.checkVerdict (r : Regs) (c : Byte) : Verdict :=
  if r.crc ≠ c then .checksumMismatch else if r.cnt = 2 then .validFrame else .lengthMismatch

theorem Regs.afterInstr_check_verdict (r : Regs) (c : Byte) :
    (r.afterInstr (.check c)).verdict = some (r.checkVerdict c) := by
  rw [Regs.afterInstr_check]
  by_cases hcrc : r.crc = c <;> by_cases hcnt : r.cnt = 2 <;>
    simp [Regs.verdict, Regs.checkVerdict, hcrc, hcnt]

/-- After a CHECK the flags spell its verdict, and STATUS[2:0] is the verdict's code. -/
theorem Regs.afterInstr_check_spells {r : Regs} {c : Byte} {v : Verdict}
    (h : r.checkVerdict c = v) : (r.afterInstr (.check c)).verdict = some v ∧
      (r.afterInstr (.check c)).status.extractLsb' 0 3 = v.code := by
  have hverdict := r.afterInstr_check_verdict c
  rw [h] at hverdict
  exact ⟨hverdict, Regs.status_of_verdict hverdict⟩

/-- A CHECK that finds another checksum clears `MATCH` and `VALID`, whatever `CNT` is (R142). -/
theorem Regs.afterInstr_check_flags_of_ne {r : Regs} {c : Byte} (h : r.crc ≠ c) :
    (r.afterInstr (.check c)).matched = false ∧ (r.afterInstr (.check c)).valid = false := by
  simp [Regs.afterInstr_check, h]

/-! ### The observation of a run -/

/-- The observation is read off the words alone: the reset leaves nothing of the state before it. -/
theorem observe_eq (ws : List Word) : observe ws =
    some (outputsOf ((ws.map Event.word).foldl Regs.afterEvent Regs.reset)) := by
  simp only [observe, runEvents_eq]
  rfl

/-! ### Tier 2 -/

/-- Settles O3: an edge's event decides the step, and a word is legal or illegal. -/
theorem oneEventTakesEffectAtAnEdge : Obligations.OneEventTakesEffectAtAnEdge := by
  refine ⟨fun s e rest hi hb => ⟨fun hr => ?_, fun hr hv hready => ?_, fun hr hno => ?_⟩,
    fun s c hne => ?_⟩
  · rw [step_cons_of_kept hi hb, Regs.afterEdge_of_rst hr, heldAfter_of_rst hr]
  · have hstep := step_cons_of_accepts hi hb
      (accepts_eq_true_iff.2 ⟨hr, hv, (cmdReady_eq_true_iff hr).1 hready⟩)
    cases hw : legalWord e.cmd with
    | true =>
      obtain ⟨i, hdec⟩ := (legalWord_iff_decode _).1 hw
      exact .inl ⟨i, hdec, hstep.trans (acceptWord_of_instr hdec _)⟩
    | false =>
      obtain ⟨why, hdec⟩ := legalWord_eq_false_iff.1 hw
      exact .inr ⟨⟨why, hdec⟩, hstep.trans (acceptWord_of_illegal hdec _)⟩
  · have ha : accepts e = false := by simpa [accepts, hr] using hno
    exact ⟨_, by rw [step_cons_of_kept hi hb, Regs.afterEdge_of_quiet hr ha]⟩
  · obtain ⟨hmatched, hvalid⟩ := Regs.afterInstr_check_flags_of_ne hne
    obtain ⟨-, hcode⟩ := Regs.afterInstr_check_spells (if_pos hne)
    exact ⟨_, exec_eq _ s, hmatched, hvalid, hcode⟩

/-- Settles O6: the next row breaks the hold or keeps it, and a kept hold has a next state. -/
theorem onlyABrokenHoldStopsTheMachine : Obligations.OnlyABrokenHoldStopsTheMachine := by
  intro s
  cases hb : brokenHold s.held (nextRow s) with
  | none => exact .inl ⟨_, step_eq_of_kept hb⟩
  | some w =>
    obtain ⟨hheld, hr, hne⟩ := brokenHold_eq_some.1 hb
    exact .inr ⟨w, hheld, hr, hne, step_of_brokenHold hb⟩

/-- Settles O13: the reset that comes first leaves the same registers from any state. -/
theorem observationDependsOnTheWordsAlone : Obligations.ObservationDependsOnTheWordsAlone :=
  ⟨(observe_eq []).trans (congrArg some outputsOf_reset),
    fun ws s => ⟨_, runEvents_eq _ s, observe_eq ws⟩⟩

/-- Settles O25: each case selects one verdict of a CHECK, which flags and code then spell. -/
theorem checkSpellsOneOfThreeVerdicts : Obligations.CheckSpellsOneOfThreeVerdicts := fun s _ =>
  ⟨_, exec_eq _ s, ⟨_, _, rfl⟩,
    fun hne => Regs.afterInstr_check_spells (if_pos hne),
    fun heq hcnt => Regs.afterInstr_check_spells
      ((if_neg (not_not_intro heq)).trans (if_neg hcnt)),
    fun heq hcnt => Regs.afterInstr_check_spells
      ((if_neg (not_not_intro heq)).trans (if_pos hcnt))⟩

end Sys2Proof.Machine
end

section
/-!
The statements about reset edges and about the wait of a presented word. An edge with `rst` = 1 leaves
the reset registers and nothing held (`step_cons_of_rst`). A word that is presented at every row is held
throughout, whatever stalls (`keepsDuty_of_presented`), the stalled rows change no register
(`foldl_afterEdge_of_not_ready`), and the bound on stalls leaves room for a ready row
(`exists_first_ready`), where the word is accepted.
-/

namespace Sys2Proof.Machine

/-! ### Reset edges -/

/-- The step of an edge with `rst` = 1, from any state and whatever was held (R170, R172). -/
theorem step_cons_of_rst {s : State} {e : EdgeIn} {rest : List EdgeIn} (hi : s.inputs = e :: rest)
    (hr : e.rst = true) : step s = .next { regs := Regs.reset, held := none, inputs := rest } := by
  rw [step_cons_of_kept hi (brokenHold_eq_none_of_free (.inr hr)), Regs.afterEdge_of_rst hr,
    heldAfter_of_rst hr]

/-- No word is accepted while `rst` = 1 (R42). -/
theorem accepts_of_rst {e : EdgeIn} (hr : e.rst = true) : accepts e = false := by
  simp [accepts, hr]

/-- A run of one step is that step, also where it stops the machine. -/
theorem run_one (s : State) : Host.Core.run Sys2Proof.core 1 s = step s := by
  have hcore : Sys2Proof.core.step s = step s := rfl
  simp only [Host.Core.run, hcore]
  cases step s <;> rfl

/-- The step of an edge that presents a word to a block that stalls: the word is held, and nothing
else changes (R43, R146). -/
theorem step_cons_of_not_ready {s : State} {e : EdgeIn} {rest : List EdgeIn}
    (hi : s.inputs = e :: rest) (hb : brokenHold s.held e = none) (hr : e.rst = false)
    (hv : e.cmdValid = true) (hready : cmdReady e = false) :
    step s = .next { regs := s.regs, held := some e.cmd, inputs := rest } := by
  rw [step_cons_of_kept hi hb, Regs.afterEdge_of_quiet hr (accepts_of_not_ready hready),
    heldAfter_of_not_ready hr hv hready]

/-! ### A word presented at every row -/

/-- A host that presents one word at every row keeps its duty, if it held no other word before. -/
theorem keepsDuty_of_presented {w : Word} {held : Option Word} {es : List EdgeIn}
    (hes : ∀ e ∈ es, e.rst = false ∧ e.cmdValid = true ∧ e.cmd = w)
    (hheld : held = none ∨ held = some w) : keepsDuty held es = true := by
  induction es generalizing held with
  | nil => rfl
  | cons e es ih =>
    obtain ⟨⟨hr, hv, hw⟩, hes⟩ := List.forall_mem_cons.1 hes
    have hkept : brokenHold held e = none := by
      rcases hheld with rfl | rfl <;> simp [brokenHold, hv, hw]
    have hafter : heldAfter e = none ∨ heldAfter e = some w := by
      cases hready : cmdReady e with
      | true => exact .inl (by simp [heldAfter, hready])
      | false => exact .inr (hw ▸ heldAfter_of_not_ready hr hv hready)
    simp [keepsDuty, hkept, ih hes hafter]

/-- Edges at which the block is not ready change no register (R42, R146). -/
theorem foldl_afterEdge_of_not_ready {es : List EdgeIn}
    (hes : ∀ e ∈ es, e.rst = false ∧ cmdReady e = false) (r : Regs) :
    es.foldl Regs.afterEdge r = r := by
  induction es with
  | nil => rfl
  | cons e es ih =>
    obtain ⟨⟨hr, hready⟩, hes⟩ := List.forall_mem_cons.1 hes
    rw [List.foldl_cons, Regs.afterEdge_of_quiet hr (accepts_of_not_ready hready), ih hes]

/-- What is held after some rows depends on the last of them alone. -/
theorem heldAfterRows_append_one (held : Option Word) (es : List EdgeIn) (e : EdgeIn) :
    heldAfterRows held (es ++ [e]) = heldAfter e := by
  induction es generalizing held with
  | nil => rfl
  | cons d es ih => exact ih (heldAfter d)

/-- More than `pBusy` rows within the bound hold a first ready one, after at most `pBusy` stalled
ones (R178). -/
theorem exists_first_ready {pBusy : Nat} {es : List EdgeIn} (hlen : pBusy < es.length)
    (hr : ∀ e ∈ es, e.rst = false) (hs : stallsWithin pBusy es = true) :
    ∃ pre e post, es = pre ++ e :: post ∧ pre.length ≤ pBusy ∧
      (∀ d ∈ pre, d.rst = false ∧ cmdReady d = false) ∧ cmdReady e = true := by
  cases hfind : es.find? cmdReady with
  | none =>
    have hnone : ∀ e ∈ es, e.rst = false ∧ cmdReady e = false := fun e he =>
      ⟨hr e he, by simpa using List.find?_eq_none.1 hfind e he⟩
    have := length_le_of_stallsWithin (pre := []) (post := []) (by simpa using hs) hnone
    omega
  | some e =>
    obtain ⟨hready, pre, post, rfl, hpre⟩ := List.find?_eq_some_iff_append.1 hfind
    have hstalled : ∀ d ∈ pre, d.rst = false ∧ cmdReady d = false := fun d hd =>
      ⟨hr d (List.mem_append_left _ hd), by simpa using hpre d hd⟩
    exact ⟨pre, e, post, rfl, length_le_of_stallsWithin (pre := []) (by simpa using hs) hstalled,
      hstalled, hready⟩

/-- Stalled rows at which the host keeps its duty change no register (R178). -/
theorem run_of_not_ready {s : State} {pre rest : List EdgeIn} (hi : s.inputs = pre ++ rest)
    (hd : keepsDuty s.held pre = true) (hpre : ∀ e ∈ pre, e.rst = false ∧ cmdReady e = false) :
    ∃ u, Host.Core.run Sys2Proof.core pre.length s = .next u ∧ u.regs = s.regs :=
  ⟨_, run_of_keepsDuty hi hd, foldl_afterEdge_of_not_ready hpre s.regs⟩

/-- Stalled rows and then a row that accepts a word have that word's whole effect and no other
(R42, R178). -/
theorem run_of_not_ready_then_accepts {s : State} {pre rest : List EdgeIn} {e : EdgeIn}
    (hi : s.inputs = pre ++ e :: rest) (hd : keepsDuty s.held (pre ++ [e]) = true)
    (hpre : ∀ d ∈ pre, d.rst = false ∧ cmdReady d = false) (ha : accepts e = true) :
    Host.Core.run Sys2Proof.core (pre.length + 1) s =
      acceptWord e.cmd { s with held := none, inputs := rest } := by
  have hrun := run_of_keepsDuty (es := pre ++ [e]) (rest := rest) (by simpa using hi) hd
  rw [List.length_append, List.length_singleton, List.foldl_append,
    foldl_afterEdge_of_not_ready hpre, heldAfterRows_append_one, heldAfter_of_accepts ha] at hrun
  rw [hrun, acceptWord_eq, List.foldl_cons, List.foldl_nil, Regs.afterEdge_of_accepts ha]
  rfl

/-! ### Tier 2 -/

/-- Settles O2: the reset edge's step does not look at the state or at the word presented. -/
theorem resetEdgeGivesEveryRegisterItsResetValue :
    Obligations.ResetEdgeGivesEveryRegisterItsResetValue := fun _ _ _ hi hr =>
  ⟨accepts_of_rst hr, _, step_cons_of_rst hi hr, rfl, rfl, rfl, rfl, rfl, rfl, rfl, rfl, rfl,
    congrArg Outputs.statusOut outputsOf_reset⟩

/-- Settles O7: after the reset edge nothing is held, so any word may be presented there. -/
theorem presentedWordIsAcceptedAfterTheReset : Obligations.PresentedWordIsAcceptedAfterTheReset := by
  refine fun s v w p x rest => ⟨fun hi => ?_, fun hi => ?_⟩ <;>
    rw [run_succ_of_step (step_cons_of_rst hi rfl), run_one]
  · exact step_cons_of_accepts (e := ⟨false, true, w, false⟩) rfl rfl rfl
  · exact step_cons_of_not_ready (e := ⟨false, true, w, true⟩) rfl rfl rfl rfl rfl

/-- Settles O9: the word is held over the stalled rows and accepted at the first ready one. -/
theorem heldWordIsAcceptedWithinTheBusyBound : Obligations.HeldWordIsAcceptedWithinTheBusyBound := by
  intro pBusy w s es rest hi hlen hes hs hheld
  obtain ⟨pre, e, post, rfl, hle, hpre, hready⟩ :=
    exists_first_ready (by omega) (fun e he => (hes e he).1) hs
  obtain ⟨hr, hv, rfl⟩ := hes e (by simp)
  have ha : accepts e = true := accepts_eq_true_iff.2 ⟨hr, hv, (cmdReady_eq_true_iff hr).1 hready⟩
  have hduty : ∀ ds ⊆ pre ++ e :: post, keepsDuty s.held ds = true := fun ds hds =>
    keepsDuty_of_presented (fun d hd => hes d (hds hd)) hheld
  have hi' : s.inputs = pre ++ e :: (post ++ rest) := by simpa using hi
  refine ⟨pre.length, hle, fun j hj => ?_, ?_⟩
  · have hsub : pre.take j ⊆ pre := List.take_subset j pre
    have hrun := run_of_not_ready (s := s) (pre := pre.take j)
      (rest := pre.drop j ++ e :: (post ++ rest))
      (by rw [← List.append_assoc, List.take_append_drop, hi'])
      (hduty _ fun d hd => List.mem_append_left _ (hsub hd)) (fun d hd => hpre d (hsub hd))
    rwa [List.length_take_of_le hj] at hrun
  · have hdrop : s.inputs.drop (pre.length + 1) = post ++ rest := by simp [hi']
    rw [hdrop]
    exact run_of_not_ready_then_accepts hi' (hduty _ (by simp)) hpre ha

end Sys2Proof.Machine
end
